-- ==== Sys2Proof/Word.lean ====
section
/-! DEFINITION. The value types of `00_scope.md` section 5.1: bytes, words, command words, Flags values,
the command triple of the port, and the result of a step; and the names the spec gives to registers and flags. -/

namespace Sys2Proof

/-- An 8-bit unsigned value (`00_scope.md` section 5.1). -/
abbrev Byte := BitVec 8

/-- A 16-bit unsigned value (`00_scope.md` section 5.1). -/
abbrev Word := BitVec 16

/-- The 8-bit command word (rule R45). -/
abbrev Cmd := BitVec 8

/-- A Flags value: all 8 raw bits, in a type of its own so that it is never taken for a `Byte`
(rules R12, R13, R50). -/
structure FV where
  raw : Byte
  deriving DecidableEq, Repr, Inhabited

/-- What the engine presents on the command port: the triple `(cmd, a, b)` of rule R45. -/
structure Command where
  cmd : Cmd
  a : Word
  b : Byte
  deriving DecidableEq, Repr

/-- The result of a step (`00_scope.md` section 5.1, rule R49). -/
inductive Result where
  | none
  | byte (v : Byte)
  | word (v : Word)
  | fv (x : FV)
  | illegal
  deriving DecidableEq, Repr

/-- The seven byte fields, `R8[0]` to `R8[6]` (rules R11, R46). `R8[7]` is the field `F`, which holds an `FV`. -/
inductive Reg8 where
  | A | B | C | D | E | H | L
  deriving DecidableEq, Repr

/-- The six 16-bit objects, `R16[0]` to `R16[5]` (rules R18, R47): four computed views and two stored fields. -/
inductive Reg16 where
  | AF | BC | DE | HL | PC | SP
  deriving DecidableEq, Repr

/-- The four flags (rule R14). -/
inductive FlagName where
  | carry | halfCarry | subtraction | zero
  deriving DecidableEq, Repr

end Sys2Proof
end

