-- ==== Sys2Proof/Syntax.lean ====
section
/-! DEFINITION. The 39 commands of rule R51, one constructor per row of the opcode table. The operands that travel on
the lanes `a` and `b` (rule R49) are the constructor's arguments, each with its type: a Flags value is an `FV`,
never a `Byte` (rule R50). -/

namespace Sys2Proof

/-- A command with its operands (rules R45, R49, R51). -/
inductive Instr where
  -- format R8, reads (rules R85 to R92)
  | rdA
  | rdB
  | rdC
  | rdD
  | rdE
  | rdH
  | rdL
  | rdF
  -- format R8, writes (rules R93 to R100)
  | wrA (v : Byte)
  | wrB (v : Byte)
  | wrC (v : Byte)
  | wrD (v : Byte)
  | wrE (v : Byte)
  | wrH (v : Byte)
  | wrL (v : Byte)
  | wrF (x : FV)
  -- format R16, reads (rules R105 to R110)
  | rdAF
  | rdBC
  | rdDE
  | rdHL
  | rdPC
  | rdSP
  -- format R16, writes (rules R111 to R116)
  | wrAF (v : Word)
  | wrBC (v : Word)
  | wrDE (v : Word)
  | wrHL (v : Word)
  | wrPC (v : Word)
  | wrSP (v : Word)
  -- format FU, functions (rules R60 to R65)
  | fromB (v : Byte)
  | toB (x : FV)
  | fAnd (x y : FV)
  | fOr (x y : FV)
  | fXor (x y : FV)
  | fNot (x : FV)
  -- format FU, constants (rules R66 to R70)
  | fEmpty
  | fCarry
  | fHalf
  | fSub
  | fZero
  deriving DecidableEq, Repr

end Sys2Proof
end

