-- ==== Sys2Proof/WellFormed.lean ====
section
/-! DEFINITION. Which command words are reserved, group by group as rule R53 lists them, and when a command on the port
is well formed. Every term of `Instr` is well formed by its type (each operand has exactly the width and the kind
that rule R49 gives it), so the check is on the command the engine presents. The groups are written from rule R53's
own arithmetic, not from the decoder; that the two agree is one of the model's statements. -/

namespace Sys2Proof

/-- Rule R53: "every word with `cls = 0b11`" (0xC0 to 0xFF, 64 words). -/
def reservedClass (c : Cmd) : Bool := c.toNat / 64 == 3

/-- Rule R53: "every R8 or R16 word with `z = cmd[4:3]` not 0b00" (96 words). -/
def reservedZ (c : Cmd) : Bool := decide (c.toNat / 64 < 2) && c.toNat / 8 % 4 != 0

/-- Rule R53: "R16 words with `sel16` 6 or 7 and `z = 0`" (4 words). -/
def reservedSel16 (c : Cmd) : Bool :=
  c.toNat / 64 == 1 && c.toNat / 8 % 4 == 0 && decide (6 ≤ c.toNat % 8)

/-- Rule R53: "every FU word with `cmd[5:4]` not 0b00" (0x90 to 0xBF, 48 words). -/
def reservedFuZ (c : Cmd) : Bool := c.toNat / 64 == 2 && c.toNat / 16 % 4 != 0

/-- Rule R53: "FU words 0x86, 0x87 (functions 6, 7) and 0x8D, 0x8E, 0x8F (constants 5, 6, 7)" (5 words). -/
def reservedFuFn (c : Cmd) : Bool := [0x86, 0x87, 0x8D, 0x8E, 0x8F].contains c.toNat

/-- The 217 reserved words of rule R53. -/
def reserved (c : Cmd) : Bool :=
  reservedClass c || reservedZ c || reservedSel16 c || reservedFuZ c || reservedFuFn c

/-- A command is well formed when its word is one of the 39 defined ones; its operand bits may be anything
(rules R49, R53). -/
def Command.wf (c : Command) : Bool := !reserved c.cmd

end Sys2Proof
end

