-- ==== Sys2Proof/Decode.lean ====
section
/-! DEFINITION. Decoding a command of the port (rules R46 to R49, R55), total, `none` for every reserved word; the
encoder, written from the same layouts; the opcode map of rule R51; and the reading of a numbered instruction
(the host's `decodeTableWord`). -/

namespace Sys2Proof

/-! The fields of the command word. -/

/-- `cls = cmd[7:6]` (rule R45). -/
def cmdCls (c : Cmd) : BitVec 2 := c.extractLsb' 6 2
/-- `w = cmd[5]` of formats R8 and R16 (rules R46, R47). -/
def cmdW (c : Cmd) : Bool := c.getLsbD 5
/-- `z = cmd[4:3]` of formats R8 and R16 (rules R46, R47). -/
def cmdZ (c : Cmd) : BitVec 2 := c.extractLsb' 3 2
/-- `sel8`, `sel16` or `fn`: `cmd[2:0]` (rules R46 to R48). -/
def cmdSel (c : Cmd) : BitVec 3 := c.extractLsb' 0 3
/-- `z = cmd[5:4]` of format FU (rule R48). -/
def cmdFuZ (c : Cmd) : BitVec 2 := c.extractLsb' 4 2
/-- `g = cmd[3]` of format FU (rule R48). -/
def cmdG (c : Cmd) : Bool := c.getLsbD 3

/-! The operand lanes (rule R49). -/

/-- A Byte operand: `a[7:0]`. -/
def laneByte (a : Word) : Byte := a.extractLsb' 0 8
/-- A first FV operand: `a[7:0]`, raw. -/
def laneFV (a : Word) : FV := ⟨a.extractLsb' 0 8⟩
/-- A second FV operand: `b[7:0]`, raw. -/
def laneFVb (b : Byte) : FV := ⟨b⟩

/-- Format R8 (rule R46). -/
def decodeR8 (w : Bool) (sel : BitVec 3) (a : Word) : Option Instr :=
  match w, sel.toNat with
  | false, 0 => some .rdA
  | false, 1 => some .rdB
  | false, 2 => some .rdC
  | false, 3 => some .rdD
  | false, 4 => some .rdE
  | false, 5 => some .rdH
  | false, 6 => some .rdL
  | false, 7 => some .rdF
  | true, 0 => some (.wrA (laneByte a))
  | true, 1 => some (.wrB (laneByte a))
  | true, 2 => some (.wrC (laneByte a))
  | true, 3 => some (.wrD (laneByte a))
  | true, 4 => some (.wrE (laneByte a))
  | true, 5 => some (.wrH (laneByte a))
  | true, 6 => some (.wrL (laneByte a))
  | true, 7 => some (.wrF (laneFV a))
  | _, _ => none

/-- Format R16 (rule R47): `sel16` 6 and 7 are reserved. -/
def decodeR16 (w : Bool) (sel : BitVec 3) (a : Word) : Option Instr :=
  match w, sel.toNat with
  | false, 0 => some .rdAF
  | false, 1 => some .rdBC
  | false, 2 => some .rdDE
  | false, 3 => some .rdHL
  | false, 4 => some .rdPC
  | false, 5 => some .rdSP
  | true, 0 => some (.wrAF a)
  | true, 1 => some (.wrBC a)
  | true, 2 => some (.wrDE a)
  | true, 3 => some (.wrHL a)
  | true, 4 => some (.wrPC a)
  | true, 5 => some (.wrSP a)
  | _, _ => none

/-- Format FU (rule R48): functions 6, 7 and constants 5 to 7 are reserved. -/
def decodeFU (g : Bool) (fn : BitVec 3) (a : Word) (b : Byte) : Option Instr :=
  match g, fn.toNat with
  | false, 0 => some (.fromB (laneByte a))
  | false, 1 => some (.toB (laneFV a))
  | false, 2 => some (.fAnd (laneFV a) (laneFVb b))
  | false, 3 => some (.fOr (laneFV a) (laneFVb b))
  | false, 4 => some (.fXor (laneFV a) (laneFVb b))
  | false, 5 => some (.fNot (laneFV a))
  | true, 0 => some .fEmpty
  | true, 1 => some .fCarry
  | true, 2 => some .fHalf
  | true, 3 => some .fSub
  | true, 4 => some .fZero
  | _, _ => none

/-- The instruction that a command word and its lanes stand for; `none` for the reserved words, whatever the lanes
(rules R45 to R49, R53, R55). -/
def decodeWord (cmd : Cmd) (a : Word) (b : Byte) : Option Instr :=
  match (cmdCls cmd).toNat with
  | 0 => if cmdZ cmd = 0#2 then decodeR8 (cmdW cmd) (cmdSel cmd) a else none
  | 1 => if cmdZ cmd = 0#2 then decodeR16 (cmdW cmd) (cmdSel cmd) a else none
  | 2 => if cmdFuZ cmd = 0#2 then decodeFU (cmdG cmd) (cmdSel cmd) a b else none
  | _ => none

/-- The instruction a command of the port stands for. -/
def decode : Command → Option Instr
  | ⟨cmd, a, b⟩ => decodeWord cmd a b

/-! The encoder. -/

/-- The word of format R8: `0 0 w 0 0 sel8` (rule R46). -/
def wordR8 (w : Bool) (sel : BitVec 3) : Cmd := 0b00#2 ++ BitVec.ofBool w ++ 0b00#2 ++ sel
/-- The word of format R16: `0 1 w 0 0 sel16` (rule R47). -/
def wordR16 (w : Bool) (sel : BitVec 3) : Cmd := 0b01#2 ++ BitVec.ofBool w ++ 0b00#2 ++ sel
/-- The word of format FU: `1 0 0 0 g fn` (rule R48). -/
def wordFU (g : Bool) (fn : BitVec 3) : Cmd := 0b10#2 ++ 0b00#2 ++ BitVec.ofBool g ++ fn

/-- The `sel8` code of a byte field (rule R46). -/
def sel8 : Reg8 → BitVec 3
  | .A => 0 | .B => 1 | .C => 2 | .D => 3 | .E => 4 | .H => 5 | .L => 6

/-- The `sel8` code of the field `F` (rule R46). -/
def sel8F : BitVec 3 := 7

/-- The `sel16` code of a 16-bit view or field (rule R47). -/
def sel16 : Reg16 → BitVec 3
  | .AF => 0 | .BC => 1 | .DE => 2 | .HL => 3 | .PC => 4 | .SP => 5

/-- A Byte or FV operand on lane `a`, its upper byte zero. -/
def toLane (v : Byte) : Word := v.setWidth 16

/-- The command for an instruction, every operand bit it does not use zero (rules R46 to R49). -/
def encode : Instr → Command
  | .rdA => ⟨wordR8 false (sel8 .A), 0, 0⟩
  | .rdB => ⟨wordR8 false (sel8 .B), 0, 0⟩
  | .rdC => ⟨wordR8 false (sel8 .C), 0, 0⟩
  | .rdD => ⟨wordR8 false (sel8 .D), 0, 0⟩
  | .rdE => ⟨wordR8 false (sel8 .E), 0, 0⟩
  | .rdH => ⟨wordR8 false (sel8 .H), 0, 0⟩
  | .rdL => ⟨wordR8 false (sel8 .L), 0, 0⟩
  | .rdF => ⟨wordR8 false sel8F, 0, 0⟩
  | .wrA v => ⟨wordR8 true (sel8 .A), toLane v, 0⟩
  | .wrB v => ⟨wordR8 true (sel8 .B), toLane v, 0⟩
  | .wrC v => ⟨wordR8 true (sel8 .C), toLane v, 0⟩
  | .wrD v => ⟨wordR8 true (sel8 .D), toLane v, 0⟩
  | .wrE v => ⟨wordR8 true (sel8 .E), toLane v, 0⟩
  | .wrH v => ⟨wordR8 true (sel8 .H), toLane v, 0⟩
  | .wrL v => ⟨wordR8 true (sel8 .L), toLane v, 0⟩
  | .wrF x => ⟨wordR8 true sel8F, toLane x.raw, 0⟩
  | .rdAF => ⟨wordR16 false (sel16 .AF), 0, 0⟩
  | .rdBC => ⟨wordR16 false (sel16 .BC), 0, 0⟩
  | .rdDE => ⟨wordR16 false (sel16 .DE), 0, 0⟩
  | .rdHL => ⟨wordR16 false (sel16 .HL), 0, 0⟩
  | .rdPC => ⟨wordR16 false (sel16 .PC), 0, 0⟩
  | .rdSP => ⟨wordR16 false (sel16 .SP), 0, 0⟩
  | .wrAF v => ⟨wordR16 true (sel16 .AF), v, 0⟩
  | .wrBC v => ⟨wordR16 true (sel16 .BC), v, 0⟩
  | .wrDE v => ⟨wordR16 true (sel16 .DE), v, 0⟩
  | .wrHL v => ⟨wordR16 true (sel16 .HL), v, 0⟩
  | .wrPC v => ⟨wordR16 true (sel16 .PC), v, 0⟩
  | .wrSP v => ⟨wordR16 true (sel16 .SP), v, 0⟩
  | .fromB v => ⟨wordFU false 0, toLane v, 0⟩
  | .toB x => ⟨wordFU false 1, toLane x.raw, 0⟩
  | .fAnd x y => ⟨wordFU false 2, toLane x.raw, y.raw⟩
  | .fOr x y => ⟨wordFU false 3, toLane x.raw, y.raw⟩
  | .fXor x y => ⟨wordFU false 4, toLane x.raw, y.raw⟩
  | .fNot x => ⟨wordFU false 5, toLane x.raw, 0⟩
  | .fEmpty => ⟨wordFU true 0, 0, 0⟩
  | .fCarry => ⟨wordFU true 1, 0, 0⟩
  | .fHalf => ⟨wordFU true 2, 0, 0⟩
  | .fSub => ⟨wordFU true 3, 0, 0⟩
  | .fZero => ⟨wordFU true 4, 0, 0⟩

/-! The opcode map. -/

/-- One row of the map of rule R51; the mask of every row is 0xFF. -/
structure OpcodeRow where
  word : Cmd
  mnemonic : String
  deriving DecidableEq, Repr

/-- Format R8 of rule R51. -/
def opcodesR8 : List OpcodeRow :=
  [⟨0x00, "RD A"⟩, ⟨0x01, "RD B"⟩, ⟨0x02, "RD C"⟩, ⟨0x03, "RD D"⟩,
   ⟨0x04, "RD E"⟩, ⟨0x05, "RD H"⟩, ⟨0x06, "RD L"⟩, ⟨0x07, "RD F"⟩,
   ⟨0x20, "WR A"⟩, ⟨0x21, "WR B"⟩, ⟨0x22, "WR C"⟩, ⟨0x23, "WR D"⟩,
   ⟨0x24, "WR E"⟩, ⟨0x25, "WR H"⟩, ⟨0x26, "WR L"⟩, ⟨0x27, "WR F"⟩]

/-- Format R16 of rule R51. -/
def opcodesR16 : List OpcodeRow :=
  [⟨0x40, "RD AF"⟩, ⟨0x41, "RD BC"⟩, ⟨0x42, "RD DE"⟩, ⟨0x43, "RD HL"⟩, ⟨0x44, "RD PC"⟩, ⟨0x45, "RD SP"⟩,
   ⟨0x60, "WR AF"⟩, ⟨0x61, "WR BC"⟩, ⟨0x62, "WR DE"⟩, ⟨0x63, "WR HL"⟩, ⟨0x64, "WR PC"⟩, ⟨0x65, "WR SP"⟩]

/-- Format FU of rule R51. -/
def opcodesFU : List OpcodeRow :=
  [⟨0x80, "FROMB"⟩, ⟨0x81, "TOB"⟩, ⟨0x82, "FAND"⟩, ⟨0x83, "FOR"⟩, ⟨0x84, "FXOR"⟩, ⟨0x85, "FNOT"⟩,
   ⟨0x88, "FEMPTY"⟩, ⟨0x89, "FCARRY"⟩, ⟨0x8A, "FHALF"⟩, ⟨0x8B, "FSUB"⟩, ⟨0x8C, "FZERO"⟩]

/-- The opcode map of rule R51: the 39 defined words. -/
def opcodeMap : List OpcodeRow := opcodesR8 ++ opcodesR16 ++ opcodesFU

/-! Numbered instructions. -/

/-- An instruction given as a number: bits 7..0 are `cmd`, bits 23..8 are `a`, bits 31..24 are `b`, and every bit
at `nbits` or above is 0. The numbering is the model's own (log entry 5); `cmd` is the table's one byte. -/
def Command.ofBits (nbits w : Nat) : Command :=
  let v := w % 2 ^ nbits
  ⟨BitVec.ofNat 8 v, BitVec.ofNat 16 (v / 2 ^ 8), BitVec.ofNat 8 (v / 2 ^ 24)⟩

/-- The instruction the decoder reads from a row of the opcode table. -/
def decodeTableWord (nbits w : Nat) : Option Instr := decode (Command.ofBits nbits w)

end Sys2Proof
end

