-- ==== Sys2Proof/Config.lean ====
section
/-! DEFINITION. The one open parameter of the spec: `RESET`, the ten field values after reset
(rules R6, R27, R140, R143; `92_eei_decisions.md` D8). Each value is an opaque constant: the spec says that
nothing may be assumed about it, so nothing can be proved about it. DESIGN CHOICE (log entry 1), safe. -/

namespace Sys2Proof.Config

/-- `RESET.A` (rule R27): unspecified. -/
opaque resetA : Byte
/-- `RESET.F` (rule R27): unspecified, all 8 raw bits. -/
opaque resetF : FV
/-- `RESET.B` (rule R27): unspecified. -/
opaque resetB : Byte
/-- `RESET.C` (rule R27): unspecified. -/
opaque resetC : Byte
/-- `RESET.D` (rule R27): unspecified. -/
opaque resetD : Byte
/-- `RESET.E` (rule R27): unspecified. -/
opaque resetE : Byte
/-- `RESET.H` (rule R27): unspecified. -/
opaque resetH : Byte
/-- `RESET.L` (rule R27): unspecified. -/
opaque resetL : Byte
/-- `RESET.PC` (rule R27): unspecified; there is no reset vector. -/
opaque resetPC : Word
/-- `RESET.SP` (rule R27): unspecified. -/
opaque resetSP : Word

end Sys2Proof.Config
end

