-- ==== Sys2Proof/Machine/State.lean ====
section
/-! DEFINITION. The state of the machine: the ten stored fields of rule R10, and the block's one port (the strapped
parameter `RESET`, the inputs the engine has still to present, the result of the last step). Every field is plain data. -/

namespace Sys2Proof.Machine

/-- The ten stored fields: the whole architectural state of the block (rule R10). The pair views AF, BC, DE, HL are
computed and are not here (rule R18). There is no hidden state but `F.raw[3:0]` (rule R24). -/
structure RegisterFile where
  /-- The accumulator half of AF (rule R11). -/
  A : Byte
  /-- The Flags value, all 8 raw bits (rule R12). -/
  F : FV
  B : Byte
  /-- Register `C`, not the Carry flag (rule R10). -/
  C : Byte
  D : Byte
  E : Byte
  /-- Register `H`, not the Half-carry flag. -/
  H : Byte
  L : Byte
  /-- The program counter: a plain stored word (rule R19). -/
  PC : Word
  /-- The stack pointer: a plain stored word (rule R20). -/
  SP : Word
  deriving DecidableEq, Repr

/-- What the engine presents for one step: the reset line, and a command or none (rules R45, R129, R141, R144). -/
structure PortIn where
  rst : Bool
  command : Option Command
  deriving DecidableEq, Repr

/-- The machine. -/
structure State where
  /-- The block's ten stored fields. -/
  regs : RegisterFile
  /-- The parameter `RESET`, "strap or parameter" (rules R27, R58, R140). No step writes it. -/
  RESET : RegisterFile
  /-- What the engine presents at the coming steps, the next one first; an empty list is an engine that presents
  nothing (log entry 2). -/
  inputs : List PortIn
  /-- The result of the last step (rule R49; log entry 3). -/
  result : Result
  deriving DecidableEq, Repr

/-- There is no fault: no command can fail, for any operand and from any state (rules R126, R136). -/
inductive Fault where
  deriving DecidableEq, Repr

/-- Why a step has no next state. -/
inductive Refusal where
  /-- Raised by an arm of `exec` whose instruction has no meaning in the model. No arm raises it. Safe: the run stops. -/
  | notModelled (mnemonic : String)
  /-- Raised by a step whose command word is one of the 217 reserved ones: `IllegalCommand` (rules R53, R54, R125, R136).
  Safe: the run stops where the hardware answers `illegal` and goes on (log entry 4). -/
  | illegalCommand (cmd : Cmd)
  deriving DecidableEq, Repr

/-- The machine right after reset with the parameter `R`: every field holds `R`'s, no result has been given and the
engine has presented nothing yet (rules R27, R140). -/
def State.resetWith (R : RegisterFile) : State :=
  { regs := R, RESET := R, inputs := [], result := .none }

/-- The parameter `RESET` of this machine, about which nothing is known (rules R27, R143; log entry 1). -/
def resetParameter : RegisterFile :=
  { A := Config.resetA, F := Config.resetF, B := Config.resetB, C := Config.resetC, D := Config.resetD
    E := Config.resetE, H := Config.resetH, L := Config.resetL, PC := Config.resetPC, SP := Config.resetSP }

/-- The machine right after reset (rules R27, R140). -/
def State.reset : State := State.resetWith resetParameter

end Sys2Proof.Machine
end

