-- ==== Sys2Proof/Machine/Flags.lean ====
section
/-! DEFINITION. The flags_unit as functions on Flags values: conversion, set algebra, constants, queries, equality and
the debug rendering (rules R12 to R16, R60 to R79). It has no state (rule R75). -/

namespace Sys2Proof

/-- Construct from a byte: all 8 bits are kept (rule R60). -/
def FV.fromByte (v : Byte) : FV := ⟨v⟩
/-- Export to the canonical byte: the low nibble is forced to zero (rules R15, R61). -/
def FV.toByte (x : FV) : Byte := x.raw &&& 0xF0#8

/-- Intersection, on the full raw byte (rule R62). -/
def FV.inter (x y : FV) : FV := ⟨x.raw &&& y.raw⟩
/-- Union, on the full raw byte (rule R63). -/
def FV.union (x y : FV) : FV := ⟨x.raw ||| y.raw⟩
/-- Symmetric difference, on the full raw byte (rule R64). -/
def FV.symmDiff (x y : FV) : FV := ⟨x.raw ^^^ y.raw⟩
/-- Complement of all 8 raw bits (rule R65). -/
def FV.compl (x : FV) : FV := ⟨~~~x.raw⟩

/-- The empty set: all 8 raw bits zero (rule R66). -/
def FV.empty : FV := ⟨0x00#8⟩

/-- The bit of the flags byte that a flag stands at (rule R14). -/
def FlagName.bit : FlagName → Nat
  | .carry => 4
  | .halfCarry => 5
  | .subtraction => 6
  | .zero => 7

/-- The singleton set of one flag: the one raw bit at its position (rules R67 to R70). -/
def FV.single (k : FlagName) : FV := ⟨BitVec.twoPow 8 k.bit⟩

/-- A flag is set in a Flags value when its bit of the exported byte is 1 (rules R14, R77). -/
def FV.has (x : FV) (k : FlagName) : Bool := x.toByte.getLsbD k.bit
/-- A set of flags is contained in another (rule R77). -/
def FV.contains (x s : FV) : Bool := (x.inter s).toByte == s.toByte
/-- No flag is set (rule R77). -/
def FV.isEmpty (x : FV) : Bool := x.toByte == 0x00#8

/-- FlagName-equal: the same exported byte (rules R25, R78). Raw-equal is equality of `FV`. -/
def FV.flagEq (x y : FV) : Bool := x.toByte == y.toByte
/-- The raw low nibble is zero, as it is in every exported byte (rules R24, R146). -/
def FV.canonical (x : FV) : Bool := x.raw == x.toByte

/-- The token of a flag in the rendering (rule R79). -/
def FlagName.token : FlagName → String
  | .zero => "Z"
  | .subtraction => "N"
  | .halfCarry => "H"
  | .carry => "C"

/-- The display order: Zero, Subtraction, Half-carry, Carry (rule R79). -/
def displayOrder : List FlagName := [.zero, .subtraction, .halfCarry, .carry]

/-- The tokens of the flags that are set, in display order (rule R79). -/
def FV.tokens (x : FV) : List String := (displayOrder.filter x.has).map FlagName.token

/-- Tokens joined by the separator, or the literal of the empty set (rule R79). -/
def joinTokens : List String → String
  | [] => "<empty>"
  | [t] => t
  | t :: u :: rest => t ++ " | " ++ joinTokens (u :: rest)

/-- The debug rendering (rule R79): a diagnostic function of the surrounding software, not a command. -/
def FV.render (x : FV) : String := joinTokens x.tokens

end Sys2Proof
end

