-- ==== Sys2Proof/Machine/Operands.lean ====
section
/-! DEFINITION. Halves and pairs of 16-bit values, the operand bits each command uses, and how a result is presented
on the port (`00_scope.md` section 5.2; rules R36, R49, R58). -/

namespace Sys2Proof.Machine

/-- `hi(w) = w[15:8]`. -/
def hi (w : Word) : Byte := w.extractLsb' 8 8
/-- `lo(w) = w[7:0]`. -/
def lo (w : Word) : Byte := w.extractLsb' 0 8
/-- The concatenation of `x` as high byte and `y` as low byte: `x * 256 + y`. -/
def pair (x y : Byte) : Word := x ++ y

/-- The bits of lane `a` that a command uses (the table of rule R49). -/
def usedA : Instr → Word
  | .rdA | .rdB | .rdC | .rdD | .rdE | .rdH | .rdL | .rdF => 0x0000
  | .wrA _ | .wrB _ | .wrC _ | .wrD _ | .wrE _ | .wrH _ | .wrL _ | .wrF _ => 0x00FF
  | .rdAF | .rdBC | .rdDE | .rdHL | .rdPC | .rdSP => 0x0000
  | .wrAF _ | .wrBC _ | .wrDE _ | .wrHL _ | .wrPC _ | .wrSP _ => 0xFFFF
  | .fromB _ | .toB _ | .fAnd _ _ | .fOr _ _ | .fXor _ _ | .fNot _ => 0x00FF
  | .fEmpty | .fCarry | .fHalf | .fSub | .fZero => 0x0000

/-- The bits of lane `b` that a command uses (the table of rule R49): FAND, FOR and FXOR alone read it. -/
def usedB : Instr → Byte
  | .fAnd _ _ | .fOr _ _ | .fXor _ _ => 0xFF
  | .rdA | .rdB | .rdC | .rdD | .rdE | .rdH | .rdL | .rdF => 0x00
  | .wrA _ | .wrB _ | .wrC _ | .wrD _ | .wrE _ | .wrH _ | .wrL _ | .wrF _ => 0x00
  | .rdAF | .rdBC | .rdDE | .rdHL | .rdPC | .rdSP => 0x00
  | .wrAF _ | .wrBC _ | .wrDE _ | .wrHL _ | .wrPC _ | .wrSP _ => 0x00
  | .fromB _ | .toB _ | .fNot _ => 0x00
  | .fEmpty | .fCarry | .fHalf | .fSub | .fZero => 0x00

/-- The output `q[15:0]`: a Byte or FV result is zero-extended, and `q = 0` when there is none (rules R49, R58). -/
def resultQ : Result → Word
  | .none => 0
  | .byte v => v.setWidth 16
  | .word v => v
  | .fv x => x.raw.setWidth 16
  | .illegal => 0

/-- The output `q_kind[1:0]`: 0 none, 1 byte, 2 word, 3 fv (rule R58). The spec gives no code for the result `illegal`;
that it is 0, as for no data, is a DESIGN CHOICE (log entry 12), unsafe. -/
def resultKind : Result → BitVec 2
  | .none => 0
  | .byte _ => 1
  | .word _ => 2
  | .fv _ => 3
  | .illegal => 0

/-- The output `ill` (rules R58, R125). -/
def resultIll : Result → Bool
  | .illegal => true
  | .none | .byte _ | .word _ | .fv _ => false

/-- The cause code: 1 for `IllegalCommand`, 0 for no exception (rule R125). -/
def causeCode (r : Result) : Nat := if resultIll r then 1 else 0

end Sys2Proof.Machine
end

