-- ==== Sys2Proof/Machine/Ops.lean ====
section
/-! DEFINITION. The operations that meanings share: reads and writes of the register file by select, giving a result,
the exception `IllegalCommand`, reset and the idle step. There is no memory (rule R35), no trap entry and no trap
return (rules R130, R131). -/

namespace Sys2Proof.Machine

/-- `R8[s]` for a byte field: the stored byte, "no transformation" (rules R11, R85 to R91). -/
def RegisterFile.get8 (r : RegisterFile) : Reg8 → Byte
  | .A => r.A
  | .B => r.B
  | .C => r.C
  | .D => r.D
  | .E => r.E
  | .H => r.H
  | .L => r.L

/-- `R8[s] <- v` for a byte field: that field alone (rules R22, R93 to R99). -/
def RegisterFile.set8 (r : RegisterFile) (s : Reg8) (v : Byte) : RegisterFile :=
  match s with
  | .A => { r with A := v }
  | .B => { r with B := v }
  | .C => { r with C := v }
  | .D => { r with D := v }
  | .E => { r with E := v }
  | .H => { r with H := v }
  | .L => { r with L := v }

/-- `R8[7] <- x`: all 8 raw bits, unmasked (rules R12, R100). -/
def RegisterFile.setF (r : RegisterFile) (x : FV) : RegisterFile := { r with F := x }

/-- `R16[p]`: a pair is composed from its two halves at each read, AF from the exported flags byte
(rules R18, R44, R105 to R110). -/
def RegisterFile.get16 (r : RegisterFile) : Reg16 → Word
  | .AF => pair (r.get8 .A) r.F.toByte
  | .BC => pair (r.get8 .B) (r.get8 .C)
  | .DE => pair (r.get8 .D) (r.get8 .E)
  | .HL => pair (r.get8 .H) (r.get8 .L)
  | .PC => r.PC
  | .SP => r.SP

/-- `R16[p] <- v`: a pair write is two field stores and nothing more; AF's low byte goes through the constructor of
Flags values, unmasked (rules R38, R111 to R116, R120). -/
def RegisterFile.set16 (r : RegisterFile) (p : Reg16) (v : Word) : RegisterFile :=
  match p with
  | .AF => (r.set8 .A (hi v)).setF (FV.fromByte (lo v))
  | .BC => (r.set8 .B (hi v)).set8 .C (lo v)
  | .DE => (r.set8 .D (hi v)).set8 .E (lo v)
  | .HL => (r.set8 .H (hi v)).set8 .L (lo v)
  | .PC => { r with PC := v }
  | .SP => { r with SP := v }

/-- Give a result and change no field of the register file (rules R39, R75). -/
def State.answer (s : State) (r : Result) : State := { s with result := r }

/-- Store a register file; the result is `none` (rules R93 to R100, R111 to R116). -/
def State.store (s : State) (r : RegisterFile) : State := { s with regs := r, result := .none }

/-- The inputs still to come, after the next one has been taken. -/
def State.withInputs (s : State) (ps : List PortIn) : State := { s with inputs := ps }

/-- Read one byte field. -/
def read8 (q : Reg8) (s : State) : Host.Outcome State Fault Refusal := .next (s.answer (.byte (s.regs.get8 q)))
/-- Write one byte field. -/
def write8 (q : Reg8) (v : Byte) (s : State) : Host.Outcome State Fault Refusal := .next (s.store (s.regs.set8 q v))
/-- Read a 16-bit view or field. -/
def read16 (p : Reg16) (s : State) : Host.Outcome State Fault Refusal := .next (s.answer (.word (s.regs.get16 p)))
/-- Write a 16-bit view or field. -/
def write16 (p : Reg16) (v : Word) (s : State) : Host.Outcome State Fault Refusal := .next (s.store (s.regs.set16 p v))
/-- Give a Flags value as result: the end of ten of the eleven flags_unit commands (rule R75). -/
def giveFV (x : FV) (s : State) : Host.Outcome State Fault Refusal := .next (s.answer (.fv x))

/-- `raise IllegalCommand(cmd)`, the block's only exception (rules R125, R130): all ten fields unchanged, the result is
`illegal`, nothing is recorded, nothing is redirected. There is nothing to return from (rule R131). -/
def raiseIllegalCommand (_cmd : Cmd) (s : State) : State := s.answer .illegal

/-- What the model's step answers for a reserved word: a refusal (rules R54, R125, R136; log entry 4). -/
def refuseReserved (cmd : Cmd) (_s : State) : Host.Outcome State Fault Refusal := .refused (.illegalCommand cmd)

/-- Reset: all ten fields at once take the value of the parameter `RESET`; no result (rules R140, R141). -/
def State.applyReset (s : State) : State := { s with regs := s.RESET, result := .none }

/-- The idle step: all ten fields keep their values; no result (rule R144). -/
def State.idle (s : State) : State := s.answer .none

end Sys2Proof.Machine
end

