-- ==== Sys2Proof/Machine/FlagsUnit.lean ====
section
/-! DEFINITION. The eleven flags_unit commands (`40_flags_unit.md`, rules R60 to R70). None reads or writes a field of
the register file (rule R75). -/

namespace Sys2Proof.Machine

/-- FROMB (rule R60). -/
def execFromB (v : Byte) (s : State) : Host.Outcome State Fault Refusal := giveFV (FV.fromByte v) s

/-- TOB (rule R61). -/
def execToB (x : FV) (s : State) : Host.Outcome State Fault Refusal := .next (s.answer (.byte x.toByte))

/-- FAND (rule R62). -/
def execFAnd (x y : FV) (s : State) : Host.Outcome State Fault Refusal := giveFV (x.inter y) s

/-- FOR (rule R63). -/
def execFOr (x y : FV) (s : State) : Host.Outcome State Fault Refusal := giveFV (x.union y) s

/-- FXOR (rule R64). -/
def execFXor (x y : FV) (s : State) : Host.Outcome State Fault Refusal := giveFV (x.symmDiff y) s

/-- FNOT (rule R65). -/
def execFNot (x : FV) (s : State) : Host.Outcome State Fault Refusal := giveFV x.compl s

/-- FEMPTY (rule R66). -/
def execFEmpty (s : State) : Host.Outcome State Fault Refusal := giveFV FV.empty s

/-- FCARRY (rule R67). -/
def execFCarry (s : State) : Host.Outcome State Fault Refusal := giveFV (FV.single .carry) s

/-- FHALF (rule R68). -/
def execFHalf (s : State) : Host.Outcome State Fault Refusal := giveFV (FV.single .halfCarry) s

/-- FSUB (rule R69). -/
def execFSub (s : State) : Host.Outcome State Fault Refusal := giveFV (FV.single .subtraction) s

/-- FZERO (rule R70). -/
def execFZero (s : State) : Host.Outcome State Fault Refusal := giveFV (FV.single .zero) s

end Sys2Proof.Machine
end

