-- ==== Sys2Proof/Machine/Reg16.lean ====
section
/-! DEFINITION. The twelve commands that read and write the pair views and `PC`, `SP` (`42_reg16.md`, rules R105 to
R116). -/

namespace Sys2Proof.Machine

/-- RD AF (rule R105). -/
def execRdAF (s : State) : Host.Outcome State Fault Refusal := read16 .AF s

/-- RD BC (rule R106). -/
def execRdBC (s : State) : Host.Outcome State Fault Refusal := read16 .BC s

/-- RD DE (rule R107). -/
def execRdDE (s : State) : Host.Outcome State Fault Refusal := read16 .DE s

/-- RD HL (rule R108). -/
def execRdHL (s : State) : Host.Outcome State Fault Refusal := read16 .HL s

/-- RD PC (rule R109). -/
def execRdPC (s : State) : Host.Outcome State Fault Refusal := read16 .PC s

/-- RD SP (rule R110). -/
def execRdSP (s : State) : Host.Outcome State Fault Refusal := read16 .SP s

/-- WR AF (rule R111). -/
def execWrAF (v : Word) (s : State) : Host.Outcome State Fault Refusal := write16 .AF v s

/-- WR BC (rule R112). -/
def execWrBC (v : Word) (s : State) : Host.Outcome State Fault Refusal := write16 .BC v s

/-- WR DE (rule R113). -/
def execWrDE (v : Word) (s : State) : Host.Outcome State Fault Refusal := write16 .DE v s

/-- WR HL (rule R114). -/
def execWrHL (v : Word) (s : State) : Host.Outcome State Fault Refusal := write16 .HL v s

/-- WR PC (rule R115). -/
def execWrPC (v : Word) (s : State) : Host.Outcome State Fault Refusal := write16 .PC v s

/-- WR SP (rule R116). -/
def execWrSP (v : Word) (s : State) : Host.Outcome State Fault Refusal := write16 .SP v s

end Sys2Proof.Machine
end

