-- ==== Sys2Proof/Machine/Reg8.lean ====
section
/-! DEFINITION. The sixteen commands that read and write the 8-bit fields (`41_reg8.md`, rules R85 to R100). -/

namespace Sys2Proof.Machine

/-- RD A: `result <- byte(A)` (rule R85). -/
def execRdA (s : State) : Host.Outcome State Fault Refusal := read8 .A s

/-- RD B: `result <- byte(B)` (rule R86). -/
def execRdB (s : State) : Host.Outcome State Fault Refusal := read8 .B s

/-- RD C: `result <- byte(C)` (rule R87). -/
def execRdC (s : State) : Host.Outcome State Fault Refusal := read8 .C s

/-- RD D: `result <- byte(D)` (rule R88). -/
def execRdD (s : State) : Host.Outcome State Fault Refusal := read8 .D s

/-- RD E: `result <- byte(E)` (rule R89). -/
def execRdE (s : State) : Host.Outcome State Fault Refusal := read8 .E s

/-- RD H: `result <- byte(H)` (rule R90). -/
def execRdH (s : State) : Host.Outcome State Fault Refusal := read8 .H s

/-- RD L: `result <- byte(L)` (rule R91). -/
def execRdL (s : State) : Host.Outcome State Fault Refusal := read8 .L s

/-- RD F: `result <- fv(F)`, all 8 raw bits (rule R92). -/
def execRdF (s : State) : Host.Outcome State Fault Refusal := giveFV s.regs.F s

/-- WR A: `A <- v` (rule R93). -/
def execWrA (v : Byte) (s : State) : Host.Outcome State Fault Refusal := write8 .A v s

/-- WR B: `B <- v` (rule R94). -/
def execWrB (v : Byte) (s : State) : Host.Outcome State Fault Refusal := write8 .B v s

/-- WR C: `C <- v` (rule R95). -/
def execWrC (v : Byte) (s : State) : Host.Outcome State Fault Refusal := write8 .C v s

/-- WR D: `D <- v` (rule R96). -/
def execWrD (v : Byte) (s : State) : Host.Outcome State Fault Refusal := write8 .D v s

/-- WR E: `E <- v` (rule R97). -/
def execWrE (v : Byte) (s : State) : Host.Outcome State Fault Refusal := write8 .E v s

/-- WR H: `H <- v` (rule R98). -/
def execWrH (v : Byte) (s : State) : Host.Outcome State Fault Refusal := write8 .H v s

/-- WR L: `L <- v` (rule R99). -/
def execWrL (v : Byte) (s : State) : Host.Outcome State Fault Refusal := write8 .L v s

/-- WR F: `F.raw <- x.raw`, no masking (rule R100). -/
def execWrF (x : FV) (s : State) : Host.Outcome State Fault Refusal := .next (s.store (s.regs.setF x))

end Sys2Proof.Machine
end

