-- ==== Sys2Proof/Machine/Dispatch.lean ====
section
/-! DEFINITION. One arm per command: which meaning it has. -/

namespace Sys2Proof.Machine

/-- The effect of one command on the machine (rules R49, R51). -/
def exec (i : Instr) (s : State) : Host.Outcome State Fault Refusal :=
  match i with
  | .rdA => Sys2Proof.Machine.execRdA s
  | .rdB => Sys2Proof.Machine.execRdB s
  | .rdC => Sys2Proof.Machine.execRdC s
  | .rdD => Sys2Proof.Machine.execRdD s
  | .rdE => Sys2Proof.Machine.execRdE s
  | .rdH => Sys2Proof.Machine.execRdH s
  | .rdL => Sys2Proof.Machine.execRdL s
  | .rdF => Sys2Proof.Machine.execRdF s
  | .wrA v => Sys2Proof.Machine.execWrA v s
  | .wrB v => Sys2Proof.Machine.execWrB v s
  | .wrC v => Sys2Proof.Machine.execWrC v s
  | .wrD v => Sys2Proof.Machine.execWrD v s
  | .wrE v => Sys2Proof.Machine.execWrE v s
  | .wrH v => Sys2Proof.Machine.execWrH v s
  | .wrL v => Sys2Proof.Machine.execWrL v s
  | .wrF x => Sys2Proof.Machine.execWrF x s
  | .rdAF => Sys2Proof.Machine.execRdAF s
  | .rdBC => Sys2Proof.Machine.execRdBC s
  | .rdDE => Sys2Proof.Machine.execRdDE s
  | .rdHL => Sys2Proof.Machine.execRdHL s
  | .rdPC => Sys2Proof.Machine.execRdPC s
  | .rdSP => Sys2Proof.Machine.execRdSP s
  | .wrAF v => Sys2Proof.Machine.execWrAF v s
  | .wrBC v => Sys2Proof.Machine.execWrBC v s
  | .wrDE v => Sys2Proof.Machine.execWrDE v s
  | .wrHL v => Sys2Proof.Machine.execWrHL v s
  | .wrPC v => Sys2Proof.Machine.execWrPC v s
  | .wrSP v => Sys2Proof.Machine.execWrSP v s
  | .fromB v => Sys2Proof.Machine.execFromB v s
  | .toB x => Sys2Proof.Machine.execToB x s
  | .fAnd x y => Sys2Proof.Machine.execFAnd x y s
  | .fOr x y => Sys2Proof.Machine.execFOr x y s
  | .fXor x y => Sys2Proof.Machine.execFXor x y s
  | .fNot x => Sys2Proof.Machine.execFNot x s
  | .fEmpty => Sys2Proof.Machine.execFEmpty s
  | .fCarry => Sys2Proof.Machine.execFCarry s
  | .fHalf => Sys2Proof.Machine.execFHalf s
  | .fSub => Sys2Proof.Machine.execFSub s
  | .fZero => Sys2Proof.Machine.execFZero s

end Sys2Proof.Machine
end

