-- ==== Sys2Proof/Machine/Port.lean ====
section
/-! DEFINITION. The command port: performing one command, taking one input of the port, and the spec's own total
transaction `step(S, cmd, a, b)` of rule R49, in which a reserved word answers `illegal` and the block goes on. -/

namespace Sys2Proof.Machine

/-- Perform a command: its meaning if its word is defined, a refusal if it is reserved (rules R49, R54, R125). -/
def perform (c : Command) (s : State) : Host.Outcome State Fault Refusal :=
  match decode c with
  | some i => exec i s
  | none => refuseReserved c.cmd s

/-- Take what the port presents at one step: reset wins over a command presented with it; with neither the step is
idle (rules R129, R141, R144). -/
def acceptInput (p : PortIn) (s : State) : Host.Outcome State Fault Refusal :=
  if p.rst then .next s.applyReset
  else
    match p.command with
    | none => .next s.idle
    | some c => perform c s

/-- The transaction of rule R49, total: the state after a command and, in `result`, its result. A reserved word raises
`IllegalCommand`, after which the block is ready for the next command (rules R125, R131). -/
def transact (c : Command) (s : State) : State :=
  match perform c s with
  | .next t => t
  | .fault f => nomatch f
  | .refused _ => raiseIllegalCommand c.cmd s

end Sys2Proof.Machine
end

