-- ==== Sys2Proof/Machine/Step.lean ====
section
/-! DEFINITION. One step of the machine, and how the host presents an instruction to it. -/

namespace Sys2Proof.Machine

/-- One step: the next input of the port is taken; an engine that presents nothing leaves the step idle
(rules R4, R41, R144). The block fetches nothing (rule R43). -/
def step (s : State) : Host.Outcome State Fault Refusal :=
  match s.inputs with
  | [] => .next s.idle
  | p :: rest => acceptInput p (s.withInputs rest)

/-- The state in which the engine presents the numbered instruction at the next step (`Command.ofBits` says how it is
numbered). The block has no program to load: a command reaches it on the port alone (rules R43, R45; log entry 2). -/
def State.withFetchWord (s : State) (nbits w : Nat) : State :=
  s.withInputs (⟨false, some (Command.ofBits nbits w)⟩ :: s.inputs)

end Sys2Proof.Machine
end

