-- ==== Sys2Proof/Machine/Engine.lean ====
section
/-! DEFINITION. The engine's side of the port as far as the spec gives it: typed temporaries, the lines of the
assembler, and the typing rule that an FV goes only where an FV is wanted (rules R50, R56; `95_test_vectors.md`
section 3). The engine is outside the block; nothing in `step` depends on this file. -/

namespace Sys2Proof.Machine

/-- The type of a data value (rules R49, R56). -/
inductive Kind where
  | byte | word | fv
  deriving DecidableEq, Repr

/-- A value the engine holds: "typed Byte, Word or FV by the result that defined them" (rule R56). -/
inductive Value where
  | byte (v : Byte)
  | word (v : Word)
  | fv (x : FV)
  deriving DecidableEq, Repr

/-- An operand of a line: a literal, or a temporary `t0`, `t1`, … (rule R56). -/
inductive Operand where
  | lit (v : Value)
  | temp (n : Nat)
  deriving DecidableEq, Repr

/-- A line of the assembler: `[dst =] MNEMONIC [operand [, operand]]`, the mnemonic given by its command word
(rule R56). -/
structure AsmLine where
  dst : Option Nat
  cmd : Cmd
  operands : List Operand
  deriving DecidableEq, Repr

/-- What a program of `95_test_vectors.md` section 3 does at one step. -/
inductive EngineAct where
  | line (l : AsmLine)
  | reset
  | idle
  deriving DecidableEq, Repr

/-- The block and the engine's temporaries, the latest binding first. -/
structure EngineState where
  block : State
  temps : List (Nat × Value)
  deriving DecidableEq, Repr

/-- The kind of a value. -/
def Value.kind : Value → Kind
  | .byte _ => .byte
  | .word _ => .word
  | .fv _ => .fv

/-- A value on lane `a` (rule R49). -/
def Value.onA : Value → Word
  | .byte v => toLane v
  | .word v => v
  | .fv x => toLane x.raw

/-- A value on lane `b` (rule R49); only FV operands travel on it. -/
def Value.onB : Value → Byte
  | .byte v => v
  | .word v => lo v
  | .fv x => x.raw

/-- The kinds of a command's operands, in order (the table of rule R49). -/
def operandKinds : Instr → List Kind
  | .rdA | .rdB | .rdC | .rdD | .rdE | .rdH | .rdL | .rdF => []
  | .wrA _ | .wrB _ | .wrC _ | .wrD _ | .wrE _ | .wrH _ | .wrL _ => [.byte]
  | .wrF _ => [.fv]
  | .rdAF | .rdBC | .rdDE | .rdHL | .rdPC | .rdSP => []
  | .wrAF _ | .wrBC _ | .wrDE _ | .wrHL _ | .wrPC _ | .wrSP _ => [.word]
  | .fromB _ => [.byte]
  | .toB _ => [.fv]
  | .fAnd _ _ | .fOr _ _ | .fXor _ _ => [.fv, .fv]
  | .fNot _ => [.fv]
  | .fEmpty | .fCarry | .fHalf | .fSub | .fZero => []

/-- The kinds a command word wants; a reserved word takes no operand. -/
def wordKinds (c : Cmd) : List Kind :=
  match decode ⟨c, 0, 0⟩ with
  | some i => operandKinds i
  | none => []

/-- The value of an operand, `none` for a temporary that nothing has defined. -/
def Operand.value (ts : List (Nat × Value)) : Operand → Option Value
  | .lit v => some v
  | .temp n => ts.lookup n

/-- The values of a line's operands. -/
def operandValues (ts : List (Nat × Value)) : List Operand → Option (List Value)
  | [] => some []
  | o :: os =>
    match o.value ts, operandValues ts os with
    | some v, some vs => some (v :: vs)
    | _, _ => none

/-- The lanes `a` and `b` for a line's operand values: "the first operand is `a`, the second `b`" (rule R56). -/
def lanes : List Value → Option (Word × Byte)
  | [] => some (0, 0)
  | [u] => some (u.onA, 0)
  | [u, v] => some (u.onA, v.onB)
  | _ :: _ :: _ :: _ => none

/-- The data a result carries (rule R49). -/
def resultValue : Result → Option Value
  | .none => none
  | .byte v => some (.byte v)
  | .word v => some (.word v)
  | .fv x => some (.fv x)
  | .illegal => none

/-- Bind a result to the line's temporary; a line that names one needs a result that carries data. -/
def bindResult (dst : Option Nat) (r : Result) (ts : List (Nat × Value)) : Option (List (Nat × Value)) :=
  match dst, resultValue r with
  | none, _ => some ts
  | some n, some v => some ((n, v) :: ts)
  | some _, none => none

/-- Issue one line: the operands must be defined and have the kinds the command wants, so that an FV is used "only as an
FV-typed operand of a later command" (rule R50); then the command is performed. -/
def issueLine : AsmLine → EngineState → Option EngineState
  | ⟨dst, cmd, operands⟩, e =>
    match operandValues e.temps operands with
    | none => none
    | some vs =>
      if vs.map Value.kind = wordKinds cmd then
        match lanes vs with
        | none => none
        | some (a, b) =>
          let t := transact ⟨cmd, a, b⟩ e.block
          match bindResult dst t.result e.temps with
          | none => none
          | some ts => some ⟨t, ts⟩
      else none

/-- One step of an engine program. -/
def act (x : EngineAct) (e : EngineState) : Option EngineState :=
  match x with
  | .line l => issueLine l e
  | .reset => some { e with block := e.block.applyReset }
  | .idle => some { e with block := e.block.idle }

/-- A program: "always a straight line of commands" (`95_test_vectors.md` section 3). -/
def runActs : List EngineAct → EngineState → Option EngineState
  | [], e => some e
  | x :: xs, e =>
    match act x e with
    | none => none
    | some e' => runActs xs e'

/-- A sequence of lines, as the pseudo-instructions of rule R57 are. -/
def runLines (ls : List AsmLine) (e : EngineState) : Option EngineState := runActs (ls.map .line) e

/-! The text of a line (rule R56). -/

/-- One hexadecimal digit. -/
def hexDigit (n : Nat) : String :=
  ["0", "1", "2", "3", "4", "5", "6", "7", "8", "9", "A", "B", "C", "D", "E", "F"].getD n "?"

/-- A byte as two digits. -/
def hexByte (v : Byte) : String := hexDigit (v.toNat / 16) ++ hexDigit (v.toNat % 16)

/-- A literal or a temporary: `0x12`, `0x1234`, `fv:0x34`, `t0`. -/
def Operand.text : Operand → String
  | .lit (.byte v) => "0x" ++ hexByte v
  | .lit (.word v) => "0x" ++ hexByte (hi v) ++ hexByte (lo v)
  | .lit (.fv x) => "fv:0x" ++ hexByte x.raw
  | .temp n => "t" ++ toString n

/-- The mnemonic of a command word (rule R51), or the word itself if it is reserved. -/
def wordText (c : Cmd) : String :=
  match opcodeMap.find? (fun r => r.word == c) with
  | some r => r.mnemonic
  | none => "(reserved 0x" ++ hexByte c ++ ")"

/-- The operands: after a comma for a WR command, whose register name is part of the mnemonic (rule R56). -/
def operandsText (isWrite : Bool) : List Operand → String
  | [] => ""
  | [o] => (if isWrite then ", " else " ") ++ o.text
  | o :: os => (if isWrite then ", " else " ") ++ o.text ++ operandsText true os

/-- The line as the assembler writes it. -/
def AsmLine.text (l : AsmLine) : String :=
  (match l.dst with
    | none => ""
    | some n => "t" ++ toString n ++ " = ") ++
  wordText l.cmd ++ operandsText (cmdW l.cmd && (cmdCls l.cmd).toNat < 2) l.operands

end Sys2Proof.Machine
end

