-- ==== Sys2Proof/Machine/Pseudo.lean ====
section
/-! DEFINITION. The pseudo-instructions of rule R57: named sequences of commands, none a command of the block. The
temporaries of an expansion are `t0`, `t1`, … in the order in which it defines them. -/

namespace Sys2Proof.Machine

/-- `t_n = RD F`. -/
def lineRdF (n : Nat) : AsmLine := ⟨some n, wordR8 false sel8F, []⟩
/-- `WR F, o`. -/
def lineWrF (o : Operand) : AsmLine := ⟨none, wordR8 true sel8F, [o]⟩
/-- A flags_unit function with a destination. -/
def lineFn (n : Nat) (fn : BitVec 3) (os : List Operand) : AsmLine := ⟨some n, wordFU false fn, os⟩
/-- A flags_unit constant with a destination. -/
def lineConst (n : Nat) (fn : BitVec 3) : AsmLine := ⟨some n, wordFU true fn, []⟩

/-- `SETF b`: `t = FROMB b ; WR F, t`. -/
def setf (b : Byte) : List AsmLine := [lineFn 0 0 [.lit (.byte b)], lineWrF (.temp 0)]

/-- `GETF`: `t = RD F ; u = TOB t`; the canonical byte is in `t1`. -/
def getf : List AsmLine := [lineRdF 0, lineFn 1 1 [.temp 0]]

/-- `ANDF y`: `t = RD F ; u = FAND t, y ; WR F, u`. -/
def andf (y : FV) : List AsmLine := [lineRdF 0, lineFn 1 2 [.temp 0, .lit (.fv y)], lineWrF (.temp 1)]
/-- `ORF y`: `t = RD F ; u = FOR t, y ; WR F, u`. -/
def orf (y : FV) : List AsmLine := [lineRdF 0, lineFn 1 3 [.temp 0, .lit (.fv y)], lineWrF (.temp 1)]
/-- `XORF y`: `t = RD F ; u = FXOR t, y ; WR F, u`. -/
def xorf (y : FV) : List AsmLine := [lineRdF 0, lineFn 1 4 [.temp 0, .lit (.fv y)], lineWrF (.temp 1)]
/-- `NOTF`: `t = RD F ; u = FNOT t ; WR F, u`. -/
def notf : List AsmLine := [lineRdF 0, lineFn 1 5 [.temp 0], lineWrF (.temp 1)]

/-- `CLRF y`: `n = FNOT y ; t = RD F ; u = FAND t, n ; WR F, u`. -/
def clrf (y : FV) : List AsmLine :=
  [lineFn 0 5 [.lit (.fv y)], lineRdF 1, lineFn 2 2 [.temp 1, .temp 0], lineWrF (.temp 2)]

/-- `TESTF k`: `t = RD F ; m = TOB t`, after which the engine tests `m[k]`. -/
def testf : List AsmLine := getf
/-- The engine's test of `TESTF k` on the byte in `t1` (rule R77). -/
def testedFlag (e : EngineState) (k : FlagName) : Option Bool :=
  match e.temps.lookup 1 with
  | some (.byte m) => some (m.getLsbD k.bit)
  | some (.word _) | some (.fv _) | none => none

/-- `FALL`: `z = FZERO ; n = FSUB ; h = FHALF ; c = FCARRY ; u = FOR z, n ; v = FOR h, c ; w = FOR u, v`; the set of all
four flags is in `t6`. -/
def fall : List AsmLine :=
  [lineConst 0 4, lineConst 1 3, lineConst 2 2, lineConst 3 1,
   lineFn 4 3 [.temp 0, .temp 1], lineFn 5 3 [.temp 2, .temp 3], lineFn 6 3 [.temp 4, .temp 5]]

/-- `MOV8 d, s`: `t = RD s ; WR d, t`, for the seven byte fields. -/
def mov8 (d s : Reg8) : List AsmLine := [⟨some 0, wordR8 false (sel8 s), []⟩, ⟨none, wordR8 true (sel8 d), [.temp 0]⟩]

/-- `MOV16 d, s`: `t = RD s ; WR d, t`, for d and s in BC DE HL PC SP; the spec gives no `MOV16` with AF. -/
def mov16 (d s : Reg16) : Option (List AsmLine) :=
  if d = .AF ∨ s = .AF then none
  else some [⟨some 0, wordR16 false (sel16 s), []⟩, ⟨none, wordR16 true (sel16 d), [.temp 0]⟩]

end Sys2Proof.Machine
end

