-- ==== Sys2Proof/Safety.lean ====
section
/-! DEFINITION. What the claims speak of: inputs a step accepts, states that are equal up to the hidden low nibble of
Flags values (rule R25), and runs in which only canonical flags are stored (rule R146). -/

namespace Sys2Proof.Machine

/-- An input that a step does not refuse: a reset, nothing, or a command whose word is defined (rules R53, R136). -/
def PortIn.accepted (p : PortIn) : Bool :=
  p.rst ||
    match p.command with
    | none => true
    | some c => c.wf

/-- A safe state: the engine never presents a reserved word (rules R126, R136). -/
def State.safe (s : State) : Bool := s.inputs.all PortIn.accepted

/-- The RD command of a byte field (rules R85 to R91). -/
def readCommand : Reg8 → Instr
  | .A => .rdA
  | .B => .rdB
  | .C => .rdC
  | .D => .rdD
  | .E => .rdE
  | .H => .rdH
  | .L => .rdL

/-- The WR command of a byte field (rules R93 to R99). -/
def writeCommand (q : Reg8) (v : Byte) : Instr :=
  match q with
  | .A => .wrA v
  | .B => .wrB v
  | .C => .wrC v
  | .D => .wrD v
  | .E => .wrE v
  | .H => .wrH v
  | .L => .wrL v

/-! Equality up to the hidden nibble (rule R25): two things are flag-equal when they become equal once every Flags value
in them is replaced by the one with the same exported byte and a zero low nibble. -/

/-- The Flags value with the same flags and a zero low nibble. -/
def maskFV (x : FV) : FV := FV.fromByte x.toByte

/-- The instruction with the low nibble of its FV operands cleared; Byte and Word operands are kept. -/
def maskInstr : Instr → Instr
  | .wrF x => .wrF (maskFV x)
  | .toB x => .toB (maskFV x)
  | .fAnd x y => .fAnd (maskFV x) (maskFV y)
  | .fOr x y => .fOr (maskFV x) (maskFV y)
  | .fXor x y => .fXor (maskFV x) (maskFV y)
  | .fNot x => .fNot (maskFV x)
  | .rdA => .rdA | .rdB => .rdB | .rdC => .rdC | .rdD => .rdD
  | .rdE => .rdE | .rdH => .rdH | .rdL => .rdL | .rdF => .rdF
  | .wrA v => .wrA v | .wrB v => .wrB v | .wrC v => .wrC v | .wrD v => .wrD v
  | .wrE v => .wrE v | .wrH v => .wrH v | .wrL v => .wrL v
  | .rdAF => .rdAF | .rdBC => .rdBC | .rdDE => .rdDE | .rdHL => .rdHL | .rdPC => .rdPC | .rdSP => .rdSP
  | .wrAF v => .wrAF v | .wrBC v => .wrBC v | .wrDE v => .wrDE v | .wrHL v => .wrHL v
  | .wrPC v => .wrPC v | .wrSP v => .wrSP v
  | .fromB v => .fromB v
  | .fEmpty => .fEmpty | .fCarry => .fCarry | .fHalf => .fHalf | .fSub => .fSub | .fZero => .fZero

/-- The result with the low nibble of an FV cleared; Byte and Word results are kept. -/
def maskResult : Result → Result
  | .fv x => .fv (maskFV x)
  | .none => .none
  | .byte v => .byte v
  | .word v => .word v
  | .illegal => .illegal

/-- A command of the port with the low nibble of its FV operands, and every operand bit it does not use, cleared. -/
def maskCommand (c : Command) : Command :=
  match decode c with
  | some i => encode (maskInstr i)
  | none => ⟨c.cmd, 0, 0⟩

/-- An input of the port, masked. -/
def maskInput (p : PortIn) : PortIn := ⟨p.rst, p.command.map maskCommand⟩

/-- The register file with the hidden nibble cleared (rule R24: it is the only hidden state). -/
def maskRegs (r : RegisterFile) : RegisterFile := { r with F := maskFV r.F }

/-- The whole machine, masked. -/
def maskState (s : State) : State :=
  { regs := maskRegs s.regs, RESET := maskRegs s.RESET, inputs := s.inputs.map maskInput, result := maskResult s.result }

/-- Two instructions with equal Byte and Word operands and flag-equal FV operands (rule R25). -/
abbrev instrFlagEq (i j : Instr) : Prop := maskInstr i = maskInstr j
/-- Equal Byte and Word results, flag-equal FV results (rule R25). -/
abbrev resultFlagEq (p q : Result) : Prop := maskResult p = maskResult q
/-- Flag-equal register files (rule R25). -/
abbrev regsFlagEq (r t : RegisterFile) : Prop := maskRegs r = maskRegs t
/-- Flag-equal machines: flag-equal fields, parameters, coming inputs and results. -/
abbrev stateFlagEq (s t : State) : Prop := maskState s = maskState t

/-- Two outcomes an observer cannot tell apart: flag-equal next states, or the same stop. -/
def outcomeFlagEq : Host.Outcome State Fault Refusal → Host.Outcome State Fault Refusal → Prop
  | .next s, .next t => stateFlagEq s t
  | .fault f, .fault g => f = g
  | .refused p, .refused q => p = q
  | .next _, .fault _ | .next _, .refused _ => False
  | .fault _, .next _ | .fault _, .refused _ => False
  | .refused _, .next _ | .refused _, .fault _ => False

/-! Canonical runs (rule R146). -/

/-- The command stores no Flags value with a non-zero low nibble: `WR F` of a canonical value, `WR AF` of a word whose
bits 3..0 are zero, or a command that does not write `F` at all. -/
def storesCanonical : Instr → Bool
  | .wrF x => x.canonical
  | .wrAF v => v &&& 0x000F == 0
  | .rdA | .rdB | .rdC | .rdD | .rdE | .rdH | .rdL | .rdF => true
  | .wrA _ | .wrB _ | .wrC _ | .wrD _ | .wrE _ | .wrH _ | .wrL _ => true
  | .rdAF | .rdBC | .rdDE | .rdHL | .rdPC | .rdSP => true
  | .wrBC _ | .wrDE _ | .wrHL _ | .wrPC _ | .wrSP _ => true
  | .fromB _ | .toB _ | .fAnd _ _ | .fOr _ _ | .fXor _ _ | .fNot _ => true
  | .fEmpty | .fCarry | .fHalf | .fSub | .fZero => true

/-- An input that stores only canonical flags. -/
def inputStoresCanonical (p : PortIn) : Bool :=
  match p.command with
  | none => true
  | some c =>
    match decode c with
    | none => true
    | some i => storesCanonical i

/-- `F` is canonical, and neither a reset nor any input still to come can make it otherwise. -/
def State.canonicalRun (s : State) : Bool :=
  s.regs.F.canonical && s.RESET.F.canonical && s.inputs.all inputStoresCanonical

end Sys2Proof.Machine
end

