-- ==== Sys2Proof/Certificates/Slice0/Obligations.lean ====
section
/-! DEFINITION. The statements about the model, from the numbered rules of the spec. -/

open Sys2Proof Sys2Proof.Machine

/-- For each of the seven byte fields r: the word of RD r (0x00 to 0x06) decodes to RD r whatever the operands, and RD r,
in every state, answers the next state in which the result is byte(r) and everything else (the ten fields, RESET, the
coming inputs) is as before. (R85, R86, R87, R88, R89, R90, R91.) -/
def Obligations.ReadByteFieldsAnswerTheirField : Prop :=
  ∀ (s : State) (a : Word) (b : Byte),
    (decode ⟨0x00, a, b⟩ = some .rdA ∧ exec .rdA s = .next { s with result := .byte s.regs.A }) ∧
    (decode ⟨0x01, a, b⟩ = some .rdB ∧ exec .rdB s = .next { s with result := .byte s.regs.B }) ∧
    (decode ⟨0x02, a, b⟩ = some .rdC ∧ exec .rdC s = .next { s with result := .byte s.regs.C }) ∧
    (decode ⟨0x03, a, b⟩ = some .rdD ∧ exec .rdD s = .next { s with result := .byte s.regs.D }) ∧
    (decode ⟨0x04, a, b⟩ = some .rdE ∧ exec .rdE s = .next { s with result := .byte s.regs.E }) ∧
    (decode ⟨0x05, a, b⟩ = some .rdH ∧ exec .rdH s = .next { s with result := .byte s.regs.H }) ∧
    (decode ⟨0x06, a, b⟩ = some .rdL ∧ exec .rdL s = .next { s with result := .byte s.regs.L })

/-- The word 0x07 decodes to RD F whatever the operands; RD F, in every state, answers the next state in which the result
is an FV whose raw byte is F.raw and everything else is as before; WR F of that same FV leaves the register file as it
was. (R92.) -/
def Obligations.ReadFlagsAnswersAllRawBits : Prop :=
  ∀ (s : State) (a : Word) (b : Byte),
    decode ⟨0x07, a, b⟩ = some .rdF ∧
    exec .rdF s = .next { s with result := .fv ⟨s.regs.F.raw⟩ } ∧
    exec (.wrF ⟨s.regs.F.raw⟩) s = .next { s with result := .none }

/-- For each of the seven byte fields r: the word of WR r (0x20 to 0x26) decodes to WR r of the byte a[7:0], whatever
a[15:8] and b; WR r of v, in every state, answers the next state in which r is v, the result is none and every other
field (no flag changes), RESET and the coming inputs are as before. (R93, R94, R95, R96, R97, R98, R99.) -/
def Obligations.WriteByteFieldsStoreTheOperand : Prop :=
  ∀ (s : State) (a : Word) (b v : Byte),
    (decode ⟨0x20, a, b⟩ = some (.wrA (BitVec.ofNat 8 a.toNat)) ∧
      exec (.wrA v) s = .next { s with regs := { s.regs with A := v }, result := .none }) ∧
    (decode ⟨0x21, a, b⟩ = some (.wrB (BitVec.ofNat 8 a.toNat)) ∧
      exec (.wrB v) s = .next { s with regs := { s.regs with B := v }, result := .none }) ∧
    (decode ⟨0x22, a, b⟩ = some (.wrC (BitVec.ofNat 8 a.toNat)) ∧
      exec (.wrC v) s = .next { s with regs := { s.regs with C := v }, result := .none }) ∧
    (decode ⟨0x23, a, b⟩ = some (.wrD (BitVec.ofNat 8 a.toNat)) ∧
      exec (.wrD v) s = .next { s with regs := { s.regs with D := v }, result := .none }) ∧
    (decode ⟨0x24, a, b⟩ = some (.wrE (BitVec.ofNat 8 a.toNat)) ∧
      exec (.wrE v) s = .next { s with regs := { s.regs with E := v }, result := .none }) ∧
    (decode ⟨0x25, a, b⟩ = some (.wrH (BitVec.ofNat 8 a.toNat)) ∧
      exec (.wrH v) s = .next { s with regs := { s.regs with H := v }, result := .none }) ∧
    (decode ⟨0x26, a, b⟩ = some (.wrL (BitVec.ofNat 8 a.toNat)) ∧
      exec (.wrL v) s = .next { s with regs := { s.regs with L := v }, result := .none })

/-- The word 0x27 decodes to WR F of the FV whose raw byte is a[7:0], whatever a[15:8] and b; WR F of x, in every state,
answers the next state in which F.raw is x.raw (all 8 bits), the result is none and every other field, RESET and the
coming inputs are as before; RD AF then answers the word whose low byte is the exported byte of x and whose high byte
is A, and RD F answers raw x.raw. (R100.) -/
def Obligations.WriteFlagsStoresAllRawBits : Prop :=
  ∀ (s : State) (a : Word) (b : Byte) (x : FV),
    decode ⟨0x27, a, b⟩ = some (.wrF ⟨BitVec.ofNat 8 a.toNat⟩) ∧
    ∃ t, exec (.wrF x) s = .next t ∧
      t = { s with regs := { s.regs with F := ⟨x.raw⟩ }, result := .none } ∧
      exec .rdAF t = .next { t with result := .word (s.regs.A ++ (x.raw &&& 0xF0#8)) } ∧
      exec .rdF t = .next { t with result := .fv ⟨x.raw⟩ }

/-- The words 0x40 to 0x43 decode to RD AF, RD BC, RD DE, RD HL whatever the operands; in every state each answers the
next state in which the result is a word and everything else is as before. The word's number is high half * 256 + low
half; for AF it is A * 256 + (F.raw with bits 3..0 zero), a multiple of 16. (R105, R106, R107, R108.) -/
def Obligations.ReadPairsComposeTheHalves : Prop :=
  ∀ (s : State) (a : Word) (b : Byte),
    (decode ⟨0x40, a, b⟩ = some .rdAF ∧ ∃ w, exec .rdAF s = .next { s with result := .word w } ∧
      w.toNat = s.regs.A.toNat * 256 + s.regs.F.raw.toNat / 16 * 16 ∧ w.toNat % 16 = 0) ∧
    (decode ⟨0x41, a, b⟩ = some .rdBC ∧ ∃ w, exec .rdBC s = .next { s with result := .word w } ∧
      w.toNat = s.regs.B.toNat * 256 + s.regs.C.toNat) ∧
    (decode ⟨0x42, a, b⟩ = some .rdDE ∧ ∃ w, exec .rdDE s = .next { s with result := .word w } ∧
      w.toNat = s.regs.D.toNat * 256 + s.regs.E.toNat) ∧
    (decode ⟨0x43, a, b⟩ = some .rdHL ∧ ∃ w, exec .rdHL s = .next { s with result := .word w } ∧
      w.toNat = s.regs.H.toNat * 256 + s.regs.L.toNat)

/-- The words 0x60 to 0x63 decode to WR AF, WR BC, WR DE, WR HL of the word a, whatever b; each, of v, in every state
answers the next state in which the first-named field is v / 256 and the second-named is v mod 256 (for AF: F.raw is v
mod 256, all 8 bits, so that Z, N, H, C are v[7], v[6], v[5], v[4] and the retained nibble is v[3:0]), the result is
none and every other field, RESET and the coming inputs are as before. (R111, R112, R113, R114.) -/
def Obligations.WritePairsSplitTheWord : Prop :=
  ∀ (s : State) (v : Word) (b : Byte),
    (decode ⟨0x60, v, b⟩ = some (.wrAF v) ∧ exec (.wrAF v) s = .next { s with
      regs := { s.regs with A := BitVec.ofNat 8 (v.toNat / 256), F := ⟨BitVec.ofNat 8 (v.toNat % 256)⟩ }, result := .none }) ∧
    (decode ⟨0x61, v, b⟩ = some (.wrBC v) ∧ exec (.wrBC v) s = .next { s with
      regs := { s.regs with B := BitVec.ofNat 8 (v.toNat / 256), C := BitVec.ofNat 8 (v.toNat % 256) }, result := .none }) ∧
    (decode ⟨0x62, v, b⟩ = some (.wrDE v) ∧ exec (.wrDE v) s = .next { s with
      regs := { s.regs with D := BitVec.ofNat 8 (v.toNat / 256), E := BitVec.ofNat 8 (v.toNat % 256) }, result := .none }) ∧
    (decode ⟨0x63, v, b⟩ = some (.wrHL v) ∧ exec (.wrHL v) s = .next { s with
      regs := { s.regs with H := BitVec.ofNat 8 (v.toNat / 256), L := BitVec.ofNat 8 (v.toNat % 256) }, result := .none }) ∧
    (∀ t, exec (.wrAF v) s = .next t →
      t.regs.F.has .zero = v.getLsbD 7 ∧ t.regs.F.has .subtraction = v.getLsbD 6 ∧
      t.regs.F.has .halfCarry = v.getLsbD 5 ∧ t.regs.F.has .carry = v.getLsbD 4 ∧
      t.regs.F.raw.extractLsb' 0 4 = v.extractLsb' 0 4)

/-- The words 0x44, 0x45 decode to RD PC, RD SP whatever the operands, and 0x64, 0x65 to WR PC, WR SP of the word a
whatever b; in every state RD PC and RD SP answer the next state whose result is the stored word, nothing else changed
(reading PC does not advance it); WR PC and WR SP of any v, odd ones included, answer the next state in which that
field is v, the result is none and nothing else changed. (R109, R110, R115, R116.) -/
def Obligations.WordFieldsReadAndWritten : Prop :=
  ∀ (s : State) (a v : Word) (b : Byte),
    (decode ⟨0x44, a, b⟩ = some .rdPC ∧ exec .rdPC s = .next { s with result := .word s.regs.PC }) ∧
    (decode ⟨0x45, a, b⟩ = some .rdSP ∧ exec .rdSP s = .next { s with result := .word s.regs.SP }) ∧
    (decode ⟨0x64, v, b⟩ = some (.wrPC v) ∧
      exec (.wrPC v) s = .next { s with regs := { s.regs with PC := v }, result := .none }) ∧
    (decode ⟨0x65, v, b⟩ = some (.wrSP v) ∧
      exec (.wrSP v) s = .next { s with regs := { s.regs with SP := v }, result := .none })

/-- The word 0x80 decodes to FROMB of the byte a[7:0] and 0x81 to TOB of the FV with raw byte a[7:0], whatever the other
operand bits; in every state FROMB of v answers the next state whose result is the FV with raw v, and TOB of x the one
whose result is the byte x.raw AND 0xF0; nothing else changes. TOB of the FV that FROMB of v gives is the byte v AND
0xF0, for all 256 v. (R60, R61.) -/
def Obligations.FlagConversionCommands : Prop :=
  ∀ (s : State) (a : Word) (b v : Byte) (x : FV),
    decode ⟨0x80, a, b⟩ = some (.fromB (BitVec.ofNat 8 a.toNat)) ∧
    decode ⟨0x81, a, b⟩ = some (.toB ⟨BitVec.ofNat 8 a.toNat⟩) ∧
    exec (.fromB v) s = .next { s with result := .fv ⟨v⟩ } ∧
    exec (.toB x) s = .next { s with result := .byte (x.raw &&& 0xF0#8) } ∧
    exec (.toB ⟨v⟩) s = .next { s with result := .byte (v &&& 0xF0#8) }

/-- The words 0x82 to 0x85 decode to FAND, FOR, FXOR of the FVs with raw bytes a[7:0] and b and to FNOT of the FV with raw
byte a[7:0] (whatever the other operand bits); in every state each answers the next state whose result is the FV with
raw byte x AND y, x OR y, x XOR y, x XOR 0xFF, over all 8 bits; nothing else changes. A flag is set in the result
exactly when it is set in both, in either, in exactly one operand, or clear in the operand. (R62, R63, R64, R65.) -/
def Obligations.FlagAlgebraCommands : Prop :=
  ∀ (s : State) (a : Word) (b : Byte) (x y : FV) (k : FlagName),
    decode ⟨0x82, a, b⟩ = some (.fAnd ⟨BitVec.ofNat 8 a.toNat⟩ ⟨b⟩) ∧
    decode ⟨0x83, a, b⟩ = some (.fOr ⟨BitVec.ofNat 8 a.toNat⟩ ⟨b⟩) ∧
    decode ⟨0x84, a, b⟩ = some (.fXor ⟨BitVec.ofNat 8 a.toNat⟩ ⟨b⟩) ∧
    decode ⟨0x85, a, b⟩ = some (.fNot ⟨BitVec.ofNat 8 a.toNat⟩) ∧
    exec (.fAnd x y) s = .next { s with result := .fv ⟨x.raw &&& y.raw⟩ } ∧
    exec (.fOr x y) s = .next { s with result := .fv ⟨x.raw ||| y.raw⟩ } ∧
    exec (.fXor x y) s = .next { s with result := .fv ⟨x.raw ^^^ y.raw⟩ } ∧
    exec (.fNot x) s = .next { s with result := .fv ⟨x.raw ^^^ 0xFF#8⟩ } ∧
    FV.has ⟨x.raw &&& y.raw⟩ k = (x.has k && y.has k) ∧
    FV.has ⟨x.raw ||| y.raw⟩ k = (x.has k || y.has k) ∧
    FV.has ⟨x.raw ^^^ y.raw⟩ k = (x.has k != y.has k) ∧
    FV.has ⟨x.raw ^^^ 0xFF#8⟩ k = !x.has k

/-- The words 0x88 to 0x8C decode to the five constants whatever the operands; in every state each answers the next state
whose result is the FV with raw byte 0x00, 0x10, 0x20, 0x40, 0x80; nothing else changes. They render as <empty>, C, H,
N, Z, where the texts H and N are the choice of decision D13 and no text of the source (log entry 11, DESIGN CHOICE).
(R66, R67, R68, R69, R70, 92_eei_decisions.md D13.) -/
def Obligations.FlagConstantCommands : Prop :=
  ∀ (s : State) (a : Word) (b : Byte),
    (decode ⟨0x88, a, b⟩ = some .fEmpty ∧ exec .fEmpty s = .next { s with result := .fv ⟨0x00⟩ }) ∧
    (decode ⟨0x89, a, b⟩ = some .fCarry ∧ exec .fCarry s = .next { s with result := .fv ⟨0x10⟩ }) ∧
    (decode ⟨0x8A, a, b⟩ = some .fHalf ∧ exec .fHalf s = .next { s with result := .fv ⟨0x20⟩ }) ∧
    (decode ⟨0x8B, a, b⟩ = some .fSub ∧ exec .fSub s = .next { s with result := .fv ⟨0x40⟩ }) ∧
    (decode ⟨0x8C, a, b⟩ = some .fZero ∧ exec .fZero s = .next { s with result := .fv ⟨0x80⟩ }) ∧
    FV.render ⟨0x00⟩ = "<empty>" ∧ FV.render ⟨0x10⟩ = "C" ∧ FV.render ⟨0x20⟩ = "H" ∧
    FV.render ⟨0x40⟩ = "N" ∧ FV.render ⟨0x80⟩ = "Z"

/-- For all Flags values x, y and every state: FAND, FOR, FXOR answer an FV r such that TOB of r answers the byte TOB(x)
AND, OR, XOR TOB(y), TOB(x) and TOB(y) being the bytes TOB answers for the operands. (R71.) -/
def Obligations.ExportIsAHomomorphism : Prop :=
  ∀ (s : State) (x y : FV), ∃ bx bY : Byte, ∃ p q r : FV,
    exec (.toB x) s = .next { s with result := .byte bx } ∧
    exec (.toB y) s = .next { s with result := .byte bY } ∧
    exec (.fAnd x y) s = .next { s with result := .fv p } ∧
    exec (.toB p) s = .next { s with result := .byte (bx &&& bY) } ∧
    exec (.fOr x y) s = .next { s with result := .fv q } ∧
    exec (.toB q) s = .next { s with result := .byte (bx ||| bY) } ∧
    exec (.fXor x y) s = .next { s with result := .fv r } ∧
    exec (.toB r) s = .next { s with result := .byte (bx ^^^ bY) }

/-- For all x, y and every state: FNOT of x answers an FV n such that FNOT of n answers raw x.raw; the exported byte of n
is that of x XOR 0xF0, and as a number 0xF0 minus it; exporting FNOT(FNOT(x)) gives the exported byte of x; FNOT of
FAND(x, y) answers what FOR of the complements answers, and FNOT of FOR(x, y) what FAND of the complements answers.
(R72.) -/
def Obligations.ComplementLaws : Prop :=
  ∀ (s : State) (x y : FV), ∃ n m : FV,
    exec (.fNot x) s = .next { s with result := .fv n } ∧
    exec (.fNot y) s = .next { s with result := .fv m } ∧
    exec (.fNot n) s = .next { s with result := .fv ⟨x.raw⟩ } ∧
    exec (.toB n) s = .next { s with result := .byte (x.toByte ^^^ 0xF0#8) } ∧
    n.toByte.toNat = 0xF0 - x.toByte.toNat ∧
    (∃ p q, exec (.fAnd x y) s = .next { s with result := .fv p } ∧
      exec (.fOr x y) s = .next { s with result := .fv q } ∧
      exec (.fNot p) s = exec (.fOr n m) s ∧ exec (.fNot q) s = exec (.fAnd n m) s)

/-- For the constants that FCARRY, FHALF, FSUB, FZERO give (FV.single of the flag): FAND of two different ones is raw
0x00; FOR(FOR(FZERO, FSUB), FOR(FHALF, FCARRY)) is raw 0xF0; each has exactly one raw bit set, at its flag's position;
FAND of the empty set with any FV is raw 0x00 and it has no bit set. (R73.) -/
def Obligations.ConstantsAreDisjointSingletons : Prop :=
  ∀ (s : State) (k l : FlagName) (x : FV),
    (k ≠ l → exec (.fAnd (FV.single k) (FV.single l)) s = .next { s with result := .fv ⟨0x00⟩ }) ∧
    exec (.fOr ((FV.single .zero).union (FV.single .subtraction)) ((FV.single .halfCarry).union (FV.single .carry))) s =
      .next { s with result := .fv ⟨0xF0⟩ } ∧
    (∀ j : Fin 8, (FV.single k).raw.getLsbD j = decide (j.val = k.bit)) ∧
    exec .fCarry s = .next { s with result := .fv (FV.single .carry) } ∧
    exec .fHalf s = .next { s with result := .fv (FV.single .halfCarry) } ∧
    exec .fSub s = .next { s with result := .fv (FV.single .subtraction) } ∧
    exec .fZero s = .next { s with result := .fv (FV.single .zero) } ∧
    exec (.fAnd FV.empty x) s = .next { s with result := .fv ⟨0x00⟩ } ∧
    exec .fEmpty s = .next { s with result := .fv FV.empty } ∧ FV.empty.raw = 0x00

/-- For every choice p of which flags are set there is a Flags value with exactly those flags set whose raw low nibble is
zero, it is the only such one, and any Flags value with exactly those flags set is exported as its raw byte. (R16,
R74, R14.) -/
def Obligations.AnyFlagCombinationIsOneExportedByte : Prop :=
  ∀ p : FlagName → Bool, ∃ x : FV, (∀ k, x.has k = p k) ∧ x.canonical = true ∧
    ∀ y : FV, (∀ k, y.has k = p k) → y.toByte = x.raw ∧ (y.canonical = true → y = x)

/-- For every state s, Flags values x and t and flag k (bit 4 to 7): bit k of the byte TOB(x) answers is 1 exactly when
FAND of x and the flag's constant answers an FV that TOB exports as non-zero; TOB(FAND(x, t)) equals TOB(t) exactly
when every flag set in t is set in x; TOB(x) is 0x00 exactly when no flag is set. (R77.) -/
def Obligations.FlagQueries : Prop :=
  ∀ (s : State) (x t : FV) (k : FlagName), ∃ bx : Byte, ∃ p q : FV, ∃ bp bq bt : Byte,
    exec (.toB x) s = .next { s with result := .byte bx } ∧
    exec (.fAnd x (FV.single k)) s = .next { s with result := .fv p } ∧
    exec (.toB p) s = .next { s with result := .byte bp } ∧
    exec (.fAnd x t) s = .next { s with result := .fv q } ∧
    exec (.toB q) s = .next { s with result := .byte bq } ∧
    exec (.toB t) s = .next { s with result := .byte bt } ∧
    x.has k = bx.getLsbD k.bit ∧ (x.has k = true ↔ bp ≠ 0x00) ∧
    (bq = bt ↔ ∀ j, t.has j = true → x.has j = true) ∧
    (bx = 0x00 ↔ ∀ j, x.has j = false)

/-- In every state and for every word v: WR BC, WR DE, WR HL, WR PC, WR SP of v answers a next state in which the RD of
the same object answers the word v and changes nothing else. (R117.) -/
def Obligations.PairRoundTrip : Prop :=
  ∀ (s : State) (v : Word),
    (∃ t, exec (.wrBC v) s = .next t ∧ exec .rdBC t = .next { t with result := .word v }) ∧
    (∃ t, exec (.wrDE v) s = .next t ∧ exec .rdDE t = .next { t with result := .word v }) ∧
    (∃ t, exec (.wrHL v) s = .next t ∧ exec .rdHL t = .next { t with result := .word v }) ∧
    (∃ t, exec (.wrPC v) s = .next t ∧ exec .rdPC t = .next { t with result := .word v }) ∧
    (∃ t, exec (.wrSP v) s = .next t ∧ exec .rdSP t = .next { t with result := .word v })

/-- In every state and for every word v: WR AF of v answers a next state in which F.raw is v[7:0], all 8 bits, and RD AF
answers v AND 0xFFF0. WR AF of the word that RD AF answers leaves A and the four flags as they were and clears
F.raw[3:0]. (R118.) -/
def Obligations.AfRoundTripTruncates : Prop :=
  ∀ (s : State) (v : Word),
    (∃ t, exec (.wrAF v) s = .next t ∧ t.regs.F.raw = BitVec.ofNat 8 v.toNat ∧
      exec .rdAF t = .next { t with result := .word (v &&& 0xFFF0#16) }) ∧
    (∃ w u, exec .rdAF s = .next { s with result := .word w } ∧ exec (.wrAF w) s = .next u ∧
      u.regs.A = s.regs.A ∧ (∀ k, u.regs.F.has k = s.regs.F.has k) ∧ u.regs.F.raw.extractLsb' 0 4 = 0)

/-- For BC, DE, HL with halves X, Y, in every state: after WR XY of v, RD X answers v / 256 and RD Y answers v mod 256;
after WR X of x and WR Y of y in either order, RD XY answers the word with high byte x and low byte y; after WR X of x
alone, RD XY answers x and the old Y. For AF: after WR AF of v, RD A answers v / 256 and TOB of what RD F answers is
v[7:0] AND 0xF0; after WR A of x and WR F of z in either order, RD AF answers x and the exported byte of z. (R119.) -/
def Obligations.HalvesAndPairsAgree : Prop :=
  ∀ (s : State) (v : Word) (x y : Byte) (z : FV),
    (∃ t, exec (.wrBC v) s = .next t ∧
      exec .rdB t = .next { t with result := .byte (BitVec.ofNat 8 (v.toNat / 256)) } ∧
      exec .rdC t = .next { t with result := .byte (BitVec.ofNat 8 (v.toNat % 256)) }) ∧
    (∃ t u, exec (.wrB x) s = .next t ∧ exec (.wrC y) t = .next u ∧
      exec .rdBC u = .next { u with result := .word (x ++ y) } ∧
      exec .rdBC t = .next { t with result := .word (x ++ s.regs.C) }) ∧
    (∃ t u, exec (.wrC y) s = .next t ∧ exec (.wrB x) t = .next u ∧
      exec .rdBC u = .next { u with result := .word (x ++ y) }) ∧
    (∃ t, exec (.wrDE v) s = .next t ∧
      exec .rdD t = .next { t with result := .byte (BitVec.ofNat 8 (v.toNat / 256)) } ∧
      exec .rdE t = .next { t with result := .byte (BitVec.ofNat 8 (v.toNat % 256)) }) ∧
    (∃ t u, exec (.wrD x) s = .next t ∧ exec (.wrE y) t = .next u ∧
      exec .rdDE u = .next { u with result := .word (x ++ y) } ∧
      exec .rdDE t = .next { t with result := .word (x ++ s.regs.E) }) ∧
    (∃ t u, exec (.wrE y) s = .next t ∧ exec (.wrD x) t = .next u ∧
      exec .rdDE u = .next { u with result := .word (x ++ y) }) ∧
    (∃ t, exec (.wrHL v) s = .next t ∧
      exec .rdH t = .next { t with result := .byte (BitVec.ofNat 8 (v.toNat / 256)) } ∧
      exec .rdL t = .next { t with result := .byte (BitVec.ofNat 8 (v.toNat % 256)) }) ∧
    (∃ t u, exec (.wrH x) s = .next t ∧ exec (.wrL y) t = .next u ∧
      exec .rdHL u = .next { u with result := .word (x ++ y) } ∧
      exec .rdHL t = .next { t with result := .word (x ++ s.regs.L) }) ∧
    (∃ t u, exec (.wrL y) s = .next t ∧ exec (.wrH x) t = .next u ∧
      exec .rdHL u = .next { u with result := .word (x ++ y) }) ∧
    (∃ t f, exec (.wrAF v) s = .next t ∧
      exec .rdA t = .next { t with result := .byte (BitVec.ofNat 8 (v.toNat / 256)) } ∧
      exec .rdF t = .next { t with result := .fv f } ∧
      exec (.toB f) t = .next { t with result := .byte (BitVec.ofNat 8 (v.toNat % 256) &&& 0xF0#8) }) ∧
    (∃ t u, exec (.wrA x) s = .next t ∧ exec (.wrF z) t = .next u ∧
      exec .rdAF u = .next { u with result := .word (x ++ (z.raw &&& 0xF0#8)) }) ∧
    (∃ t u, exec (.wrF z) s = .next t ∧ exec (.wrA x) t = .next u ∧
      exec .rdAF u = .next { u with result := .word (x ++ (z.raw &&& 0xF0#8)) })

/-- In every state and for every word v: WR XY of v, for XY in BC, DE, HL, answers the state that WR X of v / 256 followed
by WR Y of v mod 256 answers, and the state that the two in the other order answer; WR AF of v likewise with WR A of v
/ 256 and WR F of the FV constructed from v mod 256. After a pair write the pair's two fields hold those halves and
the other eight fields, PC and SP among them, are as before; after WR PC or WR SP of v that field holds v and the
other nine are as before. (R120.) -/
def Obligations.PairWriteIsTwoFieldWrites : Prop :=
  ∀ (s : State) (v : Word),
    (∃ t u w, exec (.wrAF v) s = .next w ∧
      w.regs = { s.regs with A := BitVec.ofNat 8 (v.toNat / 256), F := ⟨BitVec.ofNat 8 (v.toNat % 256)⟩ } ∧
      exec (.wrA (BitVec.ofNat 8 (v.toNat / 256))) s = .next t ∧ exec (.wrF ⟨BitVec.ofNat 8 (v.toNat % 256)⟩) t = .next w ∧
      exec (.wrF ⟨BitVec.ofNat 8 (v.toNat % 256)⟩) s = .next u ∧ exec (.wrA (BitVec.ofNat 8 (v.toNat / 256))) u = .next w) ∧
    (∃ t u w, exec (.wrBC v) s = .next w ∧
      w.regs = { s.regs with B := BitVec.ofNat 8 (v.toNat / 256), C := BitVec.ofNat 8 (v.toNat % 256) } ∧
      exec (.wrB (BitVec.ofNat 8 (v.toNat / 256))) s = .next t ∧ exec (.wrC (BitVec.ofNat 8 (v.toNat % 256))) t = .next w ∧
      exec (.wrC (BitVec.ofNat 8 (v.toNat % 256))) s = .next u ∧ exec (.wrB (BitVec.ofNat 8 (v.toNat / 256))) u = .next w) ∧
    (∃ t u w, exec (.wrDE v) s = .next w ∧
      w.regs = { s.regs with D := BitVec.ofNat 8 (v.toNat / 256), E := BitVec.ofNat 8 (v.toNat % 256) } ∧
      exec (.wrD (BitVec.ofNat 8 (v.toNat / 256))) s = .next t ∧ exec (.wrE (BitVec.ofNat 8 (v.toNat % 256))) t = .next w ∧
      exec (.wrE (BitVec.ofNat 8 (v.toNat % 256))) s = .next u ∧ exec (.wrD (BitVec.ofNat 8 (v.toNat / 256))) u = .next w) ∧
    (∃ t u w, exec (.wrHL v) s = .next w ∧
      w.regs = { s.regs with H := BitVec.ofNat 8 (v.toNat / 256), L := BitVec.ofNat 8 (v.toNat % 256) } ∧
      exec (.wrH (BitVec.ofNat 8 (v.toNat / 256))) s = .next t ∧ exec (.wrL (BitVec.ofNat 8 (v.toNat % 256))) t = .next w ∧
      exec (.wrL (BitVec.ofNat 8 (v.toNat % 256))) s = .next u ∧ exec (.wrH (BitVec.ofNat 8 (v.toNat / 256))) u = .next w) ∧
    (∃ t, exec (.wrPC v) s = .next t ∧ t.regs = { s.regs with PC := v }) ∧
    (∃ t, exec (.wrSP v) s = .next t ∧ t.regs = { s.regs with SP := v })

/-- For each byte field r, every byte v, every FV x and every state: WR r of v answers a next state in which RD r answers
byte(v); WR F of x answers a next state in which RD F answers the FV with raw x.raw. (R101.) -/
def Obligations.ReadAfterWriteOfAField : Prop :=
  ∀ (s : State) (r : Reg8) (v : Byte) (x : FV),
    (∃ t, exec (writeCommand r v) s = .next t ∧ exec (readCommand r) t = .next { t with result := .byte v }) ∧
    (∃ t, exec (.wrF x) s = .next t ∧ exec .rdF t = .next { t with result := .fv ⟨x.raw⟩ })

/-- In every state: WR r of v then WR r of w answers the state WR r of w alone answers; WR r of v and WR r' of w, r and r'
different byte fields, answer the same final state in either order; WR F of x then WR F of y answers the state WR F of
y alone answers; WR r and WR F commute. (R102.) -/
def Obligations.LastWriteWinsAndWritesCommute : Prop :=
  ∀ (s : State) (r r' : Reg8) (v w : Byte) (x y : FV),
    (∃ t, exec (writeCommand r v) s = .next t ∧ exec (writeCommand r w) t = exec (writeCommand r w) s) ∧
    (r ≠ r' → ∃ t u z, exec (writeCommand r v) s = .next t ∧ exec (writeCommand r' w) t = .next z ∧
      exec (writeCommand r' w) s = .next u ∧ exec (writeCommand r v) u = .next z) ∧
    (∃ t, exec (.wrF x) s = .next t ∧ exec (.wrF y) t = exec (.wrF y) s) ∧
    (∃ t u z, exec (writeCommand r v) s = .next t ∧ exec (.wrF x) t = .next z ∧
      exec (.wrF x) s = .next u ∧ exec (writeCommand r v) u = .next z)

/-- For every instruction and state, if exec answers next t then each of the ten fields is bit for bit as before unless
the instruction is the WR of that field or of the pair that holds it (A: WR A, WR AF; F: WR F, WR AF; B, C: their own
WR, WR BC; D, E: theirs, WR DE; H, L: theirs, WR HL; PC: WR PC; SP: WR SP). So every RD and every flags_unit command
leaves all ten unchanged. RESET and the coming inputs are always unchanged. (R22.) -/
def Obligations.FieldIsolation : Prop :=
  ∀ (i : Instr) (s t : State), exec i s = .next t →
    (t.regs.A = s.regs.A ∨ (∃ v, i = .wrA v) ∨ (∃ v, i = .wrAF v)) ∧
    (t.regs.F = s.regs.F ∨ (∃ x, i = .wrF x) ∨ (∃ v, i = .wrAF v)) ∧
    (t.regs.B = s.regs.B ∨ (∃ v, i = .wrB v) ∨ (∃ v, i = .wrBC v)) ∧
    (t.regs.C = s.regs.C ∨ (∃ v, i = .wrC v) ∨ (∃ v, i = .wrBC v)) ∧
    (t.regs.D = s.regs.D ∨ (∃ v, i = .wrD v) ∨ (∃ v, i = .wrDE v)) ∧
    (t.regs.E = s.regs.E ∨ (∃ v, i = .wrE v) ∨ (∃ v, i = .wrDE v)) ∧
    (t.regs.H = s.regs.H ∨ (∃ v, i = .wrH v) ∨ (∃ v, i = .wrHL v)) ∧
    (t.regs.L = s.regs.L ∨ (∃ v, i = .wrL v) ∨ (∃ v, i = .wrHL v)) ∧
    (t.regs.PC = s.regs.PC ∨ (∃ v, i = .wrPC v)) ∧
    (t.regs.SP = s.regs.SP ∨ (∃ v, i = .wrSP v)) ∧
    t.RESET = s.RESET ∧ t.inputs = s.inputs

/-- For every instruction i with every operand and every state s there is a state t such that exec i s answers next t, and
t's result is not illegal: no command faults, is refused or raises the exception. (R126.) -/
def Obligations.EveryCommandCompletes : Prop :=
  ∀ (i : Instr) (s : State), ∃ t, exec i s = .next t ∧ t.result ≠ .illegal

/-- For every instruction i and states s, t: if exec i s answers next t then exec i t answers next t. For a read it says
that repeating it returns the same value and changes nothing, for a write that storing the same value again changes
nothing, for a flags_unit command that its result depends on its operands alone. (R39, R75, R102, R111, R112, R113,
R114, R115, R116.) -/
def Obligations.EveryCommandIsIdempotent : Prop :=
  ∀ (i : Instr) (s t : State), exec i s = .next t → exec i t = .next t

/-- For every state s and refusal r: step s answers refused r exactly when the next input has no reset and presents a
command whose word is one of the 217 reserved ones, and r is illegalCommand of that word. step s never answers a
fault. (R136, R54.) -/
def Obligations.OnlyReservedWordsAreRefused : Prop :=
  ∀ (s : State),
    (∀ r, step s = .refused r ↔
      ∃ c rest, s.inputs = ⟨false, some c⟩ :: rest ∧ reserved c.cmd = true ∧ r = .illegalCommand c.cmd) ∧
    (∀ f, step s ≠ .fault f)

/-- For every command c whose word is reserved and every state s: the transaction of c (the spec's step(S, cmd, a, b))
answers s with result illegal and cause code 1, every field, PC and SP included, RESET and the coming inputs as
before; the model's own step refuses it with the word; and every command performed after it answers exactly what it
answers without it. For a command whose word is defined the transaction's result is not illegal and the cause code is
0. (R125, R130, R131.) -/
def Obligations.IllegalCommandChangesNothing : Prop :=
  ∀ (c : Command) (s : State),
    (reserved c.cmd = true →
      transact c s = { s with result := .illegal } ∧ causeCode (transact c s).result = 1 ∧
      resultIll (transact c s).result = true ∧
      perform c s = .refused (.illegalCommand c.cmd) ∧
      ∀ d, perform d (transact c s) = perform d s) ∧
    (reserved c.cmd = false →
      perform c s = .next (transact c s) ∧ causeCode (transact c s).result = 0)

/-- In every state whose next input asserts reset, with any command (a defined or a reserved one) or none: step answers
the next state in which all ten fields are those of RESET (F with all 8 raw bits), the result is none, and the input
has been taken. This holds for every value of RESET. That RESET itself is unchanged, so that a second reset gives the
same fields, is the model's choice, DEDUCED from R58's constant RESET (log entry 1): R141 says only that a second
reset is a second creation. (R140, R141, R58.) -/
def Obligations.ResetIsWholeAndDominant : Prop :=
  ∀ (s : State) (c : Option Command) (rest : List PortIn), s.inputs = ⟨true, c⟩ :: rest →
    step s = .next { s with
      regs := { A := s.RESET.A, F := ⟨s.RESET.F.raw⟩, B := s.RESET.B, C := s.RESET.C, D := s.RESET.D, E := s.RESET.E,
                H := s.RESET.H, L := s.RESET.L, PC := s.RESET.PC, SP := s.RESET.SP }
      inputs := rest, result := .none }

/-- For every record R of one FV, seven Bytes and two Words, the machine right after reset with parameter R has A, F (all
8 raw bits), B, C, D, E, H, L, PC, SP equal to R's; the model's State.reset is that state for the model's parameter,
of which nothing is known. (R27.) -/
def Obligations.ResetStateHoldsTheParameter : Prop :=
  (∀ R : RegisterFile,
      (State.resetWith R).regs.A = R.A ∧ (State.resetWith R).regs.F.raw = R.F.raw ∧
      (State.resetWith R).regs.B = R.B ∧ (State.resetWith R).regs.C = R.C ∧
      (State.resetWith R).regs.D = R.D ∧ (State.resetWith R).regs.E = R.E ∧
      (State.resetWith R).regs.H = R.H ∧ (State.resetWith R).regs.L = R.L ∧
      (State.resetWith R).regs.PC = R.PC ∧ (State.resetWith R).regs.SP = R.SP) ∧
    ∃ R : RegisterFile, State.reset = State.resetWith R

/-- For every number k of steps and every state whose inputs of the next k steps (as far as there are any) present neither
command nor reset: the run of k steps answers a next state with the same ten fields; after at least one of them the
result is none. (R144.) -/
def Obligations.IdleStepsHoldTheState : Prop :=
  ∀ (k : Nat) (s : State), (∀ p ∈ s.inputs.take k, p = ⟨false, none⟩) →
    ∃ t, Sys2Proof.core.run k s = .next t ∧ t.regs = s.regs ∧ (0 < k → t.result = .none)

/-- When the next input presents command c without reset and c decodes to i, step at that state is exec of i at that state
with the input taken. withFetchWord puts the numbered instruction in front of the inputs, so that the very next step
runs what decodeTableWord reads (how inputs are held is the model's own, log entry 2). (R41, R43, R45,
92_eei_decisions.md D1.) -/
def Obligations.StepRunsTheDecodedCommand : Prop :=
  ∀ (s : State),
    (∀ c rest i, s.inputs = ⟨false, some c⟩ :: rest → decode c = some i → step s = exec i (s.withInputs rest)) ∧
    (∀ n w i, decodeTableWord n w = some i → step (s.withFetchWord n w) = exec i s)

/-- For all operands: 0000_0111 is RD F, 0010_0110 is WR L of a[7:0], 0100_0101 is RD SP, 0110_0011 is WR HL of a,
1000_0010 is FAND of a[7:0] and b, 1000_1100 is FZERO; 0010_1111, 0100_0110, 1000_1101 and 1100_0000 decode to
nothing. (R46, R47, R48, 95_test_vectors.md section 2.9.) -/
def Obligations.WrittenWordsDecode : Prop :=
  ∀ (a : Word) (b : Byte),
    decode ⟨0b0000_0111, a, b⟩ = some .rdF ∧
    decode ⟨0b0010_0110, a, b⟩ = some (.wrL (BitVec.ofNat 8 a.toNat)) ∧
    decode ⟨0b0100_0101, a, b⟩ = some .rdSP ∧
    decode ⟨0b0110_0011, a, b⟩ = some (.wrHL a) ∧
    decode ⟨0b1000_0010, a, b⟩ = some (.fAnd ⟨BitVec.ofNat 8 a.toNat⟩ ⟨b⟩) ∧
    decode ⟨0b1000_1100, a, b⟩ = some .fZero ∧
    decode ⟨0b0010_1111, a, b⟩ = none ∧ decode ⟨0b0100_0110, a, b⟩ = none ∧
    decode ⟨0b1000_1101, a, b⟩ = none ∧ decode ⟨0b1100_0000, a, b⟩ = none

/-- For every instruction i of all 39, with every operand at every value: decode (encode i) is i; the encoding's word is
not reserved and is the word of a row of the opcode map. (R46, R47, R48, R49, R51.) -/
def Obligations.DecodeOfEncodeIsTheInstruction : Prop :=
  ∀ i : Instr, decode (encode i) = some i ∧ (encode i).wf = true ∧ (encode i).cmd ∈ opcodeMap.map OpcodeRow.word

/-- For every command c that decodes to i: encode i is the command with c's word, c's lane a with every bit outside the
bits i uses cleared, and c's lane b likewise. So each word has one meaning and no used operand bit is dropped. (R49,
R51.) -/
def Obligations.EncodeOfDecodeIsTheCommand : Prop :=
  ∀ (c : Command) (i : Instr), decode c = some i → encode i = ⟨c.cmd, c.a &&& usedA i, c.b &&& usedB i⟩

/-- For every command: it decodes to an instruction exactly when its word is one of the words of the opcode map, and
exactly when its word is not in rule R53's list of reserved words, whatever the operands; the map has 39 rows, no two
with the same word, and of the 256 words 217 are reserved, in the five groups of 64, 96, 4, 48 and 5; presenting a
reserved word raises IllegalCommand: the transaction changes nothing and answers illegal. (R51, R53.) -/
def Obligations.DefinedWordsAreTheOpcodeMap : Prop :=
  ∀ (c : Command) (s : State),
    ((decode c).isSome = true ↔ c.cmd ∈ opcodeMap.map OpcodeRow.word) ∧
    ((decode c).isSome = true ↔ reserved c.cmd = false) ∧
    (reserved c.cmd = true → transact c s = { s with result := .illegal }) ∧
    opcodeMap.length = 39 ∧ (opcodeMap.map OpcodeRow.word).Nodup ∧
    ((List.range 256).filter (fun n => reserved (BitVec.ofNat 8 n))).length = 217 ∧
    [reservedClass, reservedZ, reservedSel16, reservedFuZ, reservedFuFn].map
      (fun g => ((List.range 256).filter (fun n => g (BitVec.ofNat 8 n))).length) = [64, 96, 4, 48, 5]

/-- For every command that decodes to i, and any lanes a', b' that agree with its lanes on the bits i uses: performing the
command with a', b' answers, in every state, exactly what performing it with its own lanes answers. (R49,
93_implementation_defined.md I10.) -/
def Obligations.UnusedOperandBitsAreIgnored : Prop :=
  ∀ (c : Command) (i : Instr) (a' : Word) (b' : Byte) (s : State), decode c = some i →
    a' &&& usedA i = c.a &&& usedA i → b' &&& usedB i = c.b &&& usedB i →
    perform ⟨c.cmd, a', b'⟩ s = perform c s

/-- For every state s and step answering next t: if PC differs, then the input taken asserts reset and PC is RESET.PC, or
it presents WR PC of a word v without reset and PC is v. So no other command, and no idle step, advances PC. (R19,
R115.) -/
def Obligations.PcChangesOnlyByWrPcOrReset : Prop :=
  ∀ (s t : State), step s = .next t → t.regs.PC ≠ s.regs.PC →
    ∃ p rest, s.inputs = p :: rest ∧
      ((p.rst = true ∧ t.regs.PC = s.RESET.PC) ∨
       (p.rst = false ∧ ∃ c, p.command = some c ∧ (∃ v, decode c = some (.wrPC v) ∧ t.regs.PC = v)))

/-- For every state s and step answering next t: if SP differs, then the input taken asserts reset and SP is RESET.SP, or
it presents WR SP of a word v without reset and SP is v. (R20.) -/
def Obligations.SpChangesOnlyByWrSpOrReset : Prop :=
  ∀ (s t : State), step s = .next t → t.regs.SP ≠ s.regs.SP →
    ∃ p rest, s.inputs = p :: rest ∧
      ((p.rst = true ∧ t.regs.SP = s.RESET.SP) ∨
       (p.rst = false ∧ ∃ c, p.command = some c ∧ (∃ v, decode c = some (.wrSP v) ∧ t.regs.SP = v)))

/-- For every state s and step answering next t: if F differs (in any of its 8 raw bits), then the input taken asserts
reset and F is RESET.F, or it presents without reset WR F of an FV x and F is x, or WR AF of a word v and F.raw is
v[7:0]. (R17.) -/
def Obligations.FlagsChangeOnlyByWrFWrAfOrReset : Prop :=
  ∀ (s t : State), step s = .next t → t.regs.F ≠ s.regs.F →
    ∃ p rest, s.inputs = p :: rest ∧
      ((p.rst = true ∧ t.regs.F = s.RESET.F) ∨
       (p.rst = false ∧ ∃ c, p.command = some c ∧ ((∃ x, decode c = some (.wrF x) ∧ t.regs.F = x) ∨
         (∃ v, decode c = some (.wrAF v) ∧ t.regs.F.raw = BitVec.ofNat 8 v.toNat))))

/-- (a) flag-equal Flags values export and render the same; (b) AND, OR, XOR, NOT of flag-equal operands are flag-equal;
(c) every command, performed from flag-equal states with equal Byte and Word operands and flag-equal FV operands,
answers flag-equal next states and results that are equal (Byte, Word) or flag-equal (FV). (R25.) -/
def Obligations.HiddenNibbleIsUnobservable : Prop :=
  (∀ x y : FV, x.flagEq y = true → x.toByte = y.toByte ∧ x.render = y.render) ∧
    (∀ x y z w : FV, x.flagEq y = true → z.flagEq w = true →
      (x.inter z).flagEq (y.inter w) = true ∧ (x.union z).flagEq (y.union w) = true ∧
      (x.symmDiff z).flagEq (y.symmDiff w) = true ∧ x.compl.flagEq y.compl = true) ∧
    (∀ (i j : Instr) (s t : State), instrFlagEq i j → regsFlagEq s.regs t.regs →
      ∃ s' t', exec i s = .next s' ∧ exec j t = .next t' ∧ regsFlagEq s'.regs t'.regs ∧
        resultFlagEq s'.result t'.result)

/-- For every number k of steps and two machines flag-equal in fields, RESET, coming inputs and result: their runs of k
steps end in the same way, in flag-equal next states (so every Byte and Word result is the same) or in the same
refusal. In particular every single step keeps the relation. (R24, R25.) -/
def Obligations.RunsOfFlagEqualMachinesStayFlagEqual : Prop :=
  ∀ (k : Nat) (s t : State), stateFlagEq s t →
    outcomeFlagEq (step s) (step t) ∧ outcomeFlagEq (Sys2Proof.core.run k s) (Sys2Proof.core.run k t)

/-- A state is safe when no input still to come presents a reserved word without reset. From every safe state step answers
a next state t, t is safe, and its result is not illegal; and from a state that is not safe the run of as many steps
as there are inputs does not answer a next state. (R126, R136, R53.) -/
def Obligations.SafeStatesStepToSafeStates : Prop :=
  (∀ s : State, s.safe = true → ∃ t, step s = .next t ∧ t.safe = true ∧ t.result ≠ .illegal) ∧
    (∀ s : State, s.safe = false → ∀ t, Sys2Proof.core.run s.inputs.length s ≠ .next t)

/-- For every RESET the state right after reset is safe, and it is safe with any list of inputs that present only defined
words, nothing, or reset (that reset leaves no input pending is the model's choice, log entry 2). (R142, R27.) -/
def Obligations.ResetStateIsSafe : Prop :=
  ∀ (R : RegisterFile) (ps : List PortIn),
    (State.resetWith R).safe = true ∧
    ((∀ p ∈ ps, ∀ c, p.command = some c → c.wf = true) → ((State.resetWith R).withInputs ps).safe = true)

/-- A state runs canonically when F and RESET.F have zero low nibbles and no input still to come writes a non-zero low
nibble (WR F of a canonical FV, WR AF of a word with bits 3..0 zero). Every step from such a state keeps it so; and in
such a state the low byte of what RD AF answers is F.raw itself, so that writing it back with WR AF leaves the
register file unchanged. (R146, R118, R12.) -/
def Obligations.CanonicalRunIsKept : Prop :=
  ∀ s : State, s.canonicalRun = true →
    (∀ t, step s = .next t → t.canonicalRun = true) ∧
    ∃ w, exec .rdAF s = .next { s with result := .word w } ∧ BitVec.ofNat 8 w.toNat = s.regs.F.raw ∧
      exec (.wrAF w) s = .next { s with result := .none }

/-- For every RESET whose F has a zero low nibble (nothing is known of the model's own, log entry 1), the state right
after reset runs canonically; if the low nibble of RESET.F is not zero it does not. (R146, R27.) -/
def Obligations.ResetWithCanonicalFlagsRunsCanonically : Prop :=
  ∀ R : RegisterFile, (State.resetWith R).canonicalRun = R.F.canonical

/-- For every state s and step answering next t: RESET is unchanged and the coming inputs are those of s without the
first. So commands take effect one at a time in the order presented, none dropped or merged (that they are held as a
list is the model's own, log entry 2; that RESET is a strap no step changes is DEDUCED from R58, log entry 1). (R41,
R58, 92_eei_decisions.md D8.) -/
def Obligations.StepTakesOneInputAndKeepsReset : Prop :=
  ∀ (s t : State), step s = .next t → t.RESET = s.RESET ∧ t.inputs = s.inputs.tail

/-- For commands c, d presented one after the other, c decoding to i and d to j: two steps answer what exec of j answers
on the state that exec of i left, the two inputs taken. (R41, R145.) -/
def Obligations.ReadsSeeTheMostRecentWrite : Prop :=
  ∀ (s : State) (c d : Command) (rest : List PortIn) (i j : Instr),
    s.inputs = ⟨false, some c⟩ :: ⟨false, some d⟩ :: rest → decode c = some i → decode d = some j →
    ∃ t, exec i (s.withInputs rest) = .next t ∧ Sys2Proof.core.run 2 s = exec j t

/-- Only Zero set renders as Z, Zero and Carry as Z | C, the empty set as <empty>; for every Flags value the rendering is
that of the value with the same exported byte and a zero low nibble; it is <empty> exactly when no flag is set, and
otherwise the tokens of the flags set, in the order Zero Z, Subtraction N, Half-carry H, Carry C, joined by ' | '. The
texts N and H, and that the rendering depends on the exported byte alone, are the choice of decision D13 and no text
of the source (log entry 11, DESIGN CHOICE). (R79, 92_eei_decisions.md D13.) -/
def Obligations.RenderListsTheSetFlags : Prop :=
  FV.render ⟨0x80⟩ = "Z" ∧ FV.render ⟨0x90⟩ = "Z | C" ∧ FV.render ⟨0x00⟩ = "<empty>" ∧
    ∀ x : FV, x.render = FV.render ⟨x.toByte⟩ ∧
      x.render = (if x.toByte = 0x00 then "<empty>" else
        " | ".intercalate ((if x.toByte.getLsbD 7 then ["Z"] else []) ++ (if x.toByte.getLsbD 6 then ["N"] else []) ++
          (if x.toByte.getLsbD 5 then ["H"] else []) ++ (if x.toByte.getLsbD 4 then ["C"] else [])))

/-- For every block state and whatever temporaries the engine holds, each expansion is issued without error: SETF b sets
F.raw to b; GETF leaves the exported byte of F in t1; ANDF, ORF, XORF y and NOTF set F.raw to F.raw AND, OR, XOR y.raw
and to its complement; CLRF y sets F.raw to F.raw AND NOT y.raw; TESTF k tells whether flag k of F is set; FALL leaves
the FV with raw 0xF0 in t6; MOV8 d, s copies the byte field s to d; MOV16 d, s copies the 16-bit object s to d, for d,
s in BC, DE, HL, PC, SP (it has no expansion for AF). Every other field, RESET and the coming inputs are as before,
all ten fields after GETF, TESTF and FALL; the result is that of the expansion's last command. That the values stand
in t1 and t6, the temporaries being numbered in the order the expansion defines them, and that MOV16 with AF has no
expansion, are the model's choice (log entry 8, DESIGN CHOICE). (R57, R76, 92_eei_decisions.md D14.) -/
def Obligations.PseudoInstructionEffects : Prop :=
  ∀ (e : EngineState) (b : Byte) (y : FV) (k : FlagName) (d s : Reg8) (p q : Reg16),
    (∃ e', runLines (setf b) e = some e' ∧ e'.block = { e.block with regs := { e.block.regs with F := ⟨b⟩ }, result := .none }) ∧
    (∃ e', runLines getf e = some e' ∧
      e'.block = { e.block with result := .byte e.block.regs.F.toByte } ∧ e'.temps.lookup 1 = some (.byte e.block.regs.F.toByte)) ∧
    (∃ e', runLines (andf y) e = some e' ∧ e'.block = { e.block with regs := { e.block.regs with F := ⟨e.block.regs.F.raw &&& y.raw⟩ }, result := .none }) ∧
    (∃ e', runLines (orf y) e = some e' ∧ e'.block = { e.block with regs := { e.block.regs with F := ⟨e.block.regs.F.raw ||| y.raw⟩ }, result := .none }) ∧
    (∃ e', runLines (xorf y) e = some e' ∧ e'.block = { e.block with regs := { e.block.regs with F := ⟨e.block.regs.F.raw ^^^ y.raw⟩ }, result := .none }) ∧
    (∃ e', runLines notf e = some e' ∧ e'.block = { e.block with regs := { e.block.regs with F := ⟨~~~e.block.regs.F.raw⟩ }, result := .none }) ∧
    (∃ e', runLines (clrf y) e = some e' ∧ e'.block = { e.block with regs := { e.block.regs with F := ⟨e.block.regs.F.raw &&& ~~~y.raw⟩ }, result := .none }) ∧
    (∃ e', runLines testf e = some e' ∧
      e'.block = { e.block with result := .byte e.block.regs.F.toByte } ∧ testedFlag e' k = some (e.block.regs.F.has k)) ∧
    (∃ e', runLines fall e = some e' ∧
      e'.block = { e.block with result := .fv ⟨0xF0⟩ } ∧ e'.temps.lookup 6 = some (.fv ⟨0xF0⟩)) ∧
    (∃ e', runLines (mov8 d s) e = some e' ∧
      e'.block = { e.block with regs := e.block.regs.set8 d (e.block.regs.get8 s), result := .none }) ∧
    ((p = .AF ∨ q = .AF) ↔ mov16 p q = none) ∧
    (p ≠ .AF → q ≠ .AF → ∃ ls e', mov16 p q = some ls ∧ runLines ls e = some e' ∧
      e'.block = { e.block with regs := e.block.regs.set16 p (e.block.regs.get16 q), result := .none })

/-- For every line and engine state: if the line is issued, its operands have exactly the kinds that its command word
wants, in order, and every temporary it names is defined. Conversely, a line whose operands have values of the kinds
wanted is issued when it binds no temporary, or binds one and the result carries data; the block is then what the
transaction of its word answers with the first operand on a and the second on b (0 where there is none), and the
temporary holds the result. It is not issued when it binds a temporary and the result carries no data. A WR A or WR BC
of an FV, a WR F, TOB or FNOT of a byte, is not issued. R50 gives the engine's rule; that a line against it, or one
with an undefined temporary or nothing to bind, is not issued at all is the model's choice (log entries 8, DESIGN
CHOICE, and 6). (R49, R50, R56.) -/
def Obligations.FlagsValuesGoOnlyWhereFlagsAreWanted : Prop :=
  ∀ (e : EngineState),
    (∀ l e', issueLine l e = some e' →
      ∃ vs : List Value, l.operands.map (Operand.value e.temps) = vs.map some ∧ vs.map Value.kind = wordKinds l.cmd) ∧
    (∀ (l : AsmLine) (vs : List Value) (t : State),
      l.operands.map (Operand.value e.temps) = vs.map some → vs.map Value.kind = wordKinds l.cmd →
      t = transact ⟨l.cmd, (vs[0]?.map Value.onA).getD 0, (vs[1]?.map Value.onB).getD 0⟩ e.block →
      (l.dst = none → issueLine l e = some ⟨t, e.temps⟩) ∧
      (∀ n v, l.dst = some n → resultValue t.result = some v → issueLine l e = some ⟨t, (n, v) :: e.temps⟩) ∧
      (∀ n, l.dst = some n → resultValue t.result = none → issueLine l e = none)) ∧
    (∀ (x : FV) (v : Byte) (d : Option Nat),
      issueLine ⟨d, 0x20, [.lit (.fv x)]⟩ e = none ∧ issueLine ⟨d, 0x61, [.lit (.fv x)]⟩ e = none ∧
      issueLine ⟨d, 0x27, [.lit (.byte v)]⟩ e = none ∧ issueLine ⟨d, 0x81, [.lit (.byte v)]⟩ e = none ∧
      issueLine ⟨d, 0x85, [.lit (.byte v)]⟩ e = none)

/-- For every byte v, word w, FV x: the output q is v, w, x.raw as a number and 0 for no result and for illegal; q_kind is
1, 2, 3 and 0 for no result, by R58, and 0 for illegal, which no rule gives and is the model's choice (log entry 12,
DESIGN CHOICE); and for every command and state ill is 1 exactly when the word is reserved. (R49, R58.) -/
def Obligations.ResultsArePresentedZeroExtended : Prop :=
  ∀ (v : Byte) (w : Word) (x : FV) (c : Command) (s : State),
    (resultQ (.byte v)).toNat = v.toNat ∧ (resultQ (.word w)).toNat = w.toNat ∧ (resultQ (.fv x)).toNat = x.raw.toNat ∧
    resultQ .none = 0 ∧ resultQ .illegal = 0 ∧
    resultKind (.byte v) = 1 ∧ resultKind (.word w) = 2 ∧ resultKind (.fv x) = 3 ∧
    resultKind .none = 0 ∧ resultKind .illegal = 0 ∧
    (resultIll (transact c s).result = reserved c.cmd)

/-- From every state, whatever its fields and RESET, performing WR AF, WR BC, WR DE, WR HL, WR PC, WR SP one after the
other answers a next state each time, and the last one's ten fields are the halves and words written: none depends on
the state before. F.raw is the low byte of the word written to AF. (R142.) -/
def Obligations.SixWritesDefineTheWholeState : Prop :=
  ∀ (s : State) (af bc de hl pc sp : Word), ∃ t u v w x y : State,
    exec (.wrAF af) s = .next t ∧ exec (.wrBC bc) t = .next u ∧ exec (.wrDE de) u = .next v ∧
    exec (.wrHL hl) v = .next w ∧ exec (.wrPC pc) w = .next x ∧ exec (.wrSP sp) x = .next y ∧
    y.regs = { A := BitVec.ofNat 8 (af.toNat / 256), F := ⟨BitVec.ofNat 8 (af.toNat % 256)⟩,
               B := BitVec.ofNat 8 (bc.toNat / 256), C := BitVec.ofNat 8 (bc.toNat % 256),
               D := BitVec.ofNat 8 (de.toNat / 256), E := BitVec.ofNat 8 (de.toNat % 256),
               H := BitVec.ofNat 8 (hl.toNat / 256), L := BitVec.ofNat 8 (hl.toNat % 256), PC := pc, SP := sp }

/-- For each of the eleven flags_unit commands and all operands there is one result that the command gives from every
state, and from every state it answers the next state that differs from it in the result alone. (R75, R17.) -/
def Obligations.FlagsUnitReadsAndWritesNoField : Prop :=
  ∀ (v : Byte) (x y : FV),
    (∃ r, ∀ s : State, exec (.fromB v) s = .next { s with result := r }) ∧
    (∃ r, ∀ s : State, exec (.toB x) s = .next { s with result := r }) ∧
    (∃ r, ∀ s : State, exec (.fAnd x y) s = .next { s with result := r }) ∧
    (∃ r, ∀ s : State, exec (.fOr x y) s = .next { s with result := r }) ∧
    (∃ r, ∀ s : State, exec (.fXor x y) s = .next { s with result := r }) ∧
    (∃ r, ∀ s : State, exec (.fNot x) s = .next { s with result := r }) ∧
    (∃ r, ∀ s : State, exec .fEmpty s = .next { s with result := r }) ∧
    (∃ r, ∀ s : State, exec .fCarry s = .next { s with result := r }) ∧
    (∃ r, ∀ s : State, exec .fHalf s = .next { s with result := r }) ∧
    (∃ r, ∀ s : State, exec .fSub s = .next { s with result := r }) ∧
    (∃ r, ∀ s : State, exec .fZero s = .next { s with result := r })
end

