-- ==== Sys2Proof/Laws/Decode.lean ====
section
/-! SUPPORT. The decoder's small facts: lanes, and the word that given fields make. -/

namespace Sys2Proof

/-! Lanes. -/

@[simp] theorem laneByte_toLane (v : Byte) : laneByte (toLane v) = v := by
  have h := v.isLt
  apply BitVec.eq_of_toNat_eq
  simp [laneByte, toLane]
  omega

@[simp] theorem laneFV_toLane (x : FV) : laneFV (toLane x.raw) = x := by
  have h := laneByte_toLane x.raw
  simp only [laneByte] at h
  simp [laneFV, h]

@[simp] theorem laneFVb_raw (x : FV) : laneFVb x.raw = x := rfl

theorem laneByte_eq_ofNat (a : Word) : laneByte a = BitVec.ofNat 8 a.toNat := by
  apply BitVec.eq_of_toNat_eq; simp [laneByte, BitVec.extractLsb'_toNat]

theorem laneFV_eq_ofNat (a : Word) : laneFV a = ⟨BitVec.ofNat 8 a.toNat⟩ := congrArg FV.mk (laneByte_eq_ofNat a)

theorem toLane_laneByte (a : Word) : toLane (laneByte a) = a &&& 0x00FF#16 := by
  apply BitVec.eq_of_getLsbD_eq
  intro k hk
  have h : k < 8 ∨ 8 ≤ k := by omega
  have hm : (0x00FF#16).getLsbD k = decide (k < 8) := by
    revert k; decide
  simp only [toLane, laneByte, BitVec.getLsbD_setWidth, BitVec.getLsbD_extractLsb', BitVec.getLsbD_and, hm]
  simp [hk, Bool.and_comm]

theorem toLane_laneFV (a : Word) : toLane (laneFV a).raw = a &&& 0x00FF#16 := toLane_laneByte a

/-! The word that its fields make, format by format (rules R46 to R48). -/

theorem word_eq_r8 : ∀ k : Cmd, (cmdCls k).toNat = 0 → cmdZ k = 0#2 → k = wordR8 (cmdW k) (cmdSel k) := by decide

theorem word_eq_r16 : ∀ k : Cmd, (cmdCls k).toNat = 1 → cmdZ k = 0#2 → k = wordR16 (cmdW k) (cmdSel k) := by decide

theorem word_eq_fu : ∀ k : Cmd, (cmdCls k).toNat = 2 → cmdFuZ k = 0#2 → k = wordFU (cmdG k) (cmdSel k) := by decide

/-- Everything the decoder can answer: a command of one of the three formats, its word made of that format's fields. -/
theorem decode_cases {k : Cmd} {a : Word} {b : Byte} {i : Instr} (h : decode ⟨k, a, b⟩ = some i) :
    (∃ w sel, k = wordR8 w sel ∧ decodeR8 w sel a = some i) ∨
    (∃ w sel, k = wordR16 w sel ∧ decodeR16 w sel a = some i) ∨
    (∃ g fn, k = wordFU g fn ∧ decodeFU g fn a b = some i) := by
  simp only [decode, decodeWord] at h
  split at h
  · next hc =>
    split at h
    · next hz => exact .inl ⟨_, _, word_eq_r8 k hc hz, h⟩
    · cases h
  · next hc =>
    split at h
    · next hz => exact .inr (.inl ⟨_, _, word_eq_r16 k hc hz, h⟩)
    · cases h
  · next hc =>
    split at h
    · next hz => exact .inr (.inr ⟨_, _, word_eq_fu k hc hz, h⟩)
    · cases h
  · cases h

end Sys2Proof
end

