-- ==== Sys2Proof/Laws/State.lean ====
section
/-! SUPPORT. What each update of the state and of the register file does to each field, so that no proof unfolds one. -/

namespace Sys2Proof.Machine

/-! `State.answer`: the result alone. -/

@[simp] theorem answer_regs (s : State) (r : Result) : (s.answer r).regs = s.regs := rfl
@[simp] theorem answer_RESET (s : State) (r : Result) : (s.answer r).RESET = s.RESET := rfl
@[simp] theorem answer_inputs (s : State) (r : Result) : (s.answer r).inputs = s.inputs := rfl
@[simp] theorem answer_result (s : State) (r : Result) : (s.answer r).result = r := rfl

/-! `State.store`: the register file and the result. -/

@[simp] theorem store_regs (s : State) (r : RegisterFile) : (s.store r).regs = r := rfl
@[simp] theorem store_RESET (s : State) (r : RegisterFile) : (s.store r).RESET = s.RESET := rfl
@[simp] theorem store_inputs (s : State) (r : RegisterFile) : (s.store r).inputs = s.inputs := rfl
@[simp] theorem store_result (s : State) (r : RegisterFile) : (s.store r).result = .none := rfl

/-! `State.withInputs`: the inputs alone. -/

@[simp] theorem withInputs_regs (s : State) (ps : List PortIn) : (s.withInputs ps).regs = s.regs := rfl
@[simp] theorem withInputs_RESET (s : State) (ps : List PortIn) : (s.withInputs ps).RESET = s.RESET := rfl
@[simp] theorem withInputs_inputs (s : State) (ps : List PortIn) : (s.withInputs ps).inputs = ps := rfl
@[simp] theorem withInputs_result (s : State) (ps : List PortIn) : (s.withInputs ps).result = s.result := rfl

/-! `State.applyReset`: all ten fields and the result. -/

@[simp] theorem applyReset_regs (s : State) : s.applyReset.regs = s.RESET := rfl
@[simp] theorem applyReset_RESET (s : State) : s.applyReset.RESET = s.RESET := rfl
@[simp] theorem applyReset_inputs (s : State) : s.applyReset.inputs = s.inputs := rfl
@[simp] theorem applyReset_result (s : State) : s.applyReset.result = .none := rfl

/-! `State.idle` and `raiseIllegalCommand`: the result alone. -/

@[simp] theorem idle_eq (s : State) : s.idle = s.answer .none := rfl
@[simp] theorem raiseIllegalCommand_eq (c : Cmd) (s : State) : raiseIllegalCommand c s = s.answer .illegal := rfl

/-! `State.resetWith`. -/

@[simp] theorem resetWith_regs (R : RegisterFile) : (State.resetWith R).regs = R := rfl
@[simp] theorem resetWith_RESET (R : RegisterFile) : (State.resetWith R).RESET = R := rfl
@[simp] theorem resetWith_inputs (R : RegisterFile) : (State.resetWith R).inputs = [] := rfl
@[simp] theorem resetWith_result (R : RegisterFile) : (State.resetWith R).result = .none := rfl

/-! `RegisterFile.setF`: the field `F` alone. -/

@[simp] theorem setF_F (r : RegisterFile) (x : FV) : (r.setF x).F = x := rfl
@[simp] theorem setF_get8 (r : RegisterFile) (x : FV) (q : Reg8) : (r.setF x).get8 q = r.get8 q := by cases q <;> rfl
@[simp] theorem setF_PC (r : RegisterFile) (x : FV) : (r.setF x).PC = r.PC := rfl
@[simp] theorem setF_SP (r : RegisterFile) (x : FV) : (r.setF x).SP = r.SP := rfl

/-! `RegisterFile.set8`: the named byte field alone. -/

@[simp] theorem set8_F (r : RegisterFile) (q : Reg8) (v : Byte) : (r.set8 q v).F = r.F := by cases q <;> rfl
@[simp] theorem set8_PC (r : RegisterFile) (q : Reg8) (v : Byte) : (r.set8 q v).PC = r.PC := by cases q <;> rfl
@[simp] theorem set8_SP (r : RegisterFile) (q : Reg8) (v : Byte) : (r.set8 q v).SP = r.SP := by cases q <;> rfl
@[simp] theorem set8_get8_same (r : RegisterFile) (q : Reg8) (v : Byte) : (r.set8 q v).get8 q = v := by cases q <;> rfl

theorem set8_get8 (r : RegisterFile) (q q' : Reg8) (v : Byte) :
    (r.set8 q v).get8 q' = if q' = q then v else r.get8 q' := by cases q <;> cases q' <;> rfl

/-! `RegisterFile.set16`, object by object, as record updates. -/

@[simp] theorem set16_AF (r : RegisterFile) (v : Word) :
    r.set16 .AF v = { r with A := hi v, F := FV.fromByte (lo v) } := rfl
@[simp] theorem set16_BC (r : RegisterFile) (v : Word) : r.set16 .BC v = { r with B := hi v, C := lo v } := rfl
@[simp] theorem set16_DE (r : RegisterFile) (v : Word) : r.set16 .DE v = { r with D := hi v, E := lo v } := rfl
@[simp] theorem set16_HL (r : RegisterFile) (v : Word) : r.set16 .HL v = { r with H := hi v, L := lo v } := rfl
@[simp] theorem set16_PC (r : RegisterFile) (v : Word) : r.set16 .PC v = { r with PC := v } := rfl
@[simp] theorem set16_SP (r : RegisterFile) (v : Word) : r.set16 .SP v = { r with SP := v } := rfl

/-! `RegisterFile.get16`, object by object. -/

@[simp] theorem get16_AF (r : RegisterFile) : r.get16 .AF = pair r.A r.F.toByte := rfl
@[simp] theorem get16_BC (r : RegisterFile) : r.get16 .BC = pair r.B r.C := rfl
@[simp] theorem get16_DE (r : RegisterFile) : r.get16 .DE = pair r.D r.E := rfl
@[simp] theorem get16_HL (r : RegisterFile) : r.get16 .HL = pair r.H r.L := rfl
@[simp] theorem get16_PC (r : RegisterFile) : r.get16 .PC = r.PC := rfl
@[simp] theorem get16_SP (r : RegisterFile) : r.get16 .SP = r.SP := rfl

end Sys2Proof.Machine
end

