-- ==== Sys2Proof/Laws/Ops.lean ====
section
/-! SUPPORT. Halves and pairs, exported flags, and what each shared operation can answer. -/

namespace Sys2Proof.Machine

/-! Halves and pairs. -/

theorem hi_toNat (w : Word) : (hi w).toNat = w.toNat / 256 := by
  have h := w.isLt
  simp only [hi, BitVec.extractLsb'_toNat, Nat.shiftRight_eq_div_pow]
  omega

theorem lo_toNat (w : Word) : (lo w).toNat = w.toNat % 256 := by simp [lo, BitVec.extractLsb'_toNat]

theorem pair_toNat (x y : Byte) : (pair x y).toNat = x.toNat * 256 + y.toNat := by
  have h := y.isLt
  rw [pair, BitVec.toNat_append, Nat.shiftLeft_eq, Nat.mul_comm, ← Nat.two_pow_add_eq_or_of_lt h]

@[simp] theorem pair_hi_lo (w : Word) : pair (hi w) (lo w) = w := by
  apply BitVec.eq_of_toNat_eq
  rw [pair_toNat, hi_toNat, lo_toNat]
  omega

@[simp] theorem hi_pair (x y : Byte) : hi (pair x y) = x := by
  apply BitVec.eq_of_toNat_eq
  have := y.isLt
  rw [hi_toNat, pair_toNat]
  omega

@[simp] theorem lo_pair (x y : Byte) : lo (pair x y) = y := by
  apply BitVec.eq_of_toNat_eq
  have := y.isLt
  rw [lo_toNat, pair_toNat]
  omega

/-! Exported flags. -/

@[simp] theorem raw_fromByte (v : Byte) : (FV.fromByte v).raw = v := rfl

theorem toByte_getLsbD (x : FV) (k : Nat) : x.toByte.getLsbD k = (decide (4 ≤ k) && x.raw.getLsbD k) := by
  rcases Nat.lt_or_ge k 8 with h | h
  · have hk : k = 0 ∨ k = 1 ∨ k = 2 ∨ k = 3 ∨ k = 4 ∨ k = 5 ∨ k = 6 ∨ k = 7 := by omega
    rcases hk with rfl | rfl | rfl | rfl | rfl | rfl | rfl | rfl <;>
      simp [FV.toByte]
  · simp [BitVec.getLsbD_of_ge _ _ h]

@[simp] theorem toByte_fromByte_toByte (x : FV) : (FV.fromByte x.toByte).toByte = x.toByte := by
  simp [FV.toByte, BitVec.and_assoc]

theorem toByte_toNat (x : FV) : x.toByte.toNat = x.raw.toNat / 16 * 16 := by
  have h : ∀ r : Byte, (r &&& 0xF0#8).toNat = r.toNat / 16 * 16 := by decide
  exact h x.raw

/-- A flag is set exactly when its raw bit is 1: export keeps bits 7..4. -/
theorem has_eq_raw (x : FV) (k : FlagName) : x.has k = x.raw.getLsbD k.bit := by
  cases k <;> simp only [FV.has, FlagName.bit, toByte_getLsbD] <;> rfl

/-! What a shared operation answers: always the one next state, whatever the state it is applied to. -/

theorem read8_next {q : Reg8} {s t : State} : read8 q s = .next t ↔ t = s.answer (.byte (s.regs.get8 q)) := by
  simp only [read8, Host.Outcome.next.injEq]; exact eq_comm

theorem write8_next {q : Reg8} {v : Byte} {s t : State} : write8 q v s = .next t ↔ t = s.store (s.regs.set8 q v) := by
  simp only [write8, Host.Outcome.next.injEq]; exact eq_comm

theorem read16_next {p : Reg16} {s t : State} : read16 p s = .next t ↔ t = s.answer (.word (s.regs.get16 p)) := by
  simp only [read16, Host.Outcome.next.injEq]; exact eq_comm

theorem write16_next {p : Reg16} {v : Word} {s t : State} :
    write16 p v s = .next t ↔ t = s.store (s.regs.set16 p v) := by
  simp only [write16, Host.Outcome.next.injEq]; exact eq_comm

theorem giveFV_next {x : FV} {s t : State} : giveFV x s = .next t ↔ t = s.answer (.fv x) := by
  simp only [giveFV, Host.Outcome.next.injEq]; exact eq_comm

end Sys2Proof.Machine
end

