-- ==== Sys2Proof/Laws/Step.lean ====
section
/-! SUPPORT. What performing a command and taking a step can answer, said once. -/

namespace Sys2Proof.Machine

theorem perform_of_decode {c : Command} {i : Instr} (h : decode c = some i) (s : State) : perform c s = exec i s := by
  simp [perform, h]

theorem perform_of_reserved {c : Command} (h : decode c = none) (s : State) :
    perform c s = .refused (.illegalCommand c.cmd) := by simp [perform, h, refuseReserved]

/-- Everything `perform` can do when it answers a next state. -/
theorem perform_next_cases {c : Command} {s t : State} (h : perform c s = .next t) :
    ∃ i, decode c = some i ∧ exec i s = .next t := by
  cases hd : decode c with
  | none => simp [perform_of_reserved hd] at h
  | some i => exact ⟨i, rfl, perform_of_decode hd s ▸ h⟩

theorem acceptInput_reset (c : Option Command) (s : State) : acceptInput ⟨true, c⟩ s = .next s.applyReset := rfl

theorem acceptInput_idle (s : State) : acceptInput ⟨false, none⟩ s = .next s.idle := rfl

theorem acceptInput_command (c : Command) (s : State) : acceptInput ⟨false, some c⟩ s = perform c s := rfl

theorem step_nil {s : State} (h : s.inputs = []) : step s = .next s.idle := by simp [step, h]

theorem step_cons {s : State} {p : PortIn} {rest : List PortIn} (h : s.inputs = p :: rest) :
    step s = acceptInput p (s.withInputs rest) := by simp [step, h]

/-- Everything a step can do when it answers a next state: idle, reset, or the effect of the command presented. -/
theorem step_next_cases {s t : State} (h : step s = .next t) :
    (s.inputs = [] ∧ t = s.idle) ∨
    (∃ c rest, s.inputs = ⟨true, c⟩ :: rest ∧ t = (s.withInputs rest).applyReset) ∨
    (∃ rest, s.inputs = ⟨false, none⟩ :: rest ∧ t = (s.withInputs rest).idle) ∨
    (∃ c rest i, s.inputs = ⟨false, some c⟩ :: rest ∧ decode c = some i ∧ exec i (s.withInputs rest) = .next t) := by
  match hi : s.inputs with
  | [] =>
    rw [step_nil hi] at h
    exact .inl ⟨rfl, (Host.Outcome.next.inj h).symm⟩
  | ⟨true, c⟩ :: rest =>
    rw [step_cons hi, acceptInput_reset] at h
    exact .inr (.inl ⟨c, rest, rfl, (Host.Outcome.next.inj h).symm⟩)
  | ⟨false, none⟩ :: rest =>
    rw [step_cons hi, acceptInput_idle] at h
    exact .inr (.inr (.inl ⟨rest, rfl, (Host.Outcome.next.inj h).symm⟩))
  | ⟨false, some c⟩ :: rest =>
    rw [step_cons hi, acceptInput_command] at h
    obtain ⟨i, hd, he⟩ := perform_next_cases h
    exact .inr (.inr (.inr ⟨c, rest, i, rfl, hd, he⟩))

/-! Runs. -/

theorem run_zero (s : State) : Sys2Proof.core.run 0 s = .next s := rfl

theorem run_succ_of_next {s t : State} (h : step s = .next t) (k : Nat) :
    Sys2Proof.core.run (k + 1) s = Sys2Proof.core.run k t := by
  have h' : Sys2Proof.core.step s = .next t := h
  simp only [Host.Core.run, h']

theorem run_succ_of_refused {s : State} {r : Refusal} (h : step s = .refused r) (k : Nat) :
    Sys2Proof.core.run (k + 1) s = .refused r := by
  have h' : Sys2Proof.core.step s = .refused r := h
  simp only [Host.Core.run, h']

end Sys2Proof.Machine
end

