-- ==== Sys2Proof/Laws/Engine.lean ====
section
/-! SUPPORT. What issuing a line of an engine program does, said once. -/

namespace Sys2Proof.Machine

/-- A command whose word is defined is transacted by its meaning. -/
theorem transact_of_decode {c : Command} {i : Instr} {s t : State} (hd : decode c = some i) (he : exec i s = .next t) :
    transact c s = t := by
  have h : perform c s = .next t := (perform_of_decode hd s).trans he
  simp [transact, h]

theorem transact_of_reserved {c : Command} (h : decode c = none) (s : State) : transact c s = s.answer .illegal := by
  simp [transact, perform_of_reserved h]

/-! Operands and lanes. -/

/-- The operands of a line have values exactly when each of them has one. -/
theorem operandValues_eq_some_iff {ts : List (Nat × Value)} {os : List Operand} {vs : List Value} :
    operandValues ts os = some vs ↔ os.map (Operand.value ts) = vs.map some := by
  induction os generalizing vs with
  | nil => cases vs <;> simp [operandValues]
  | cons o os ih =>
    cases vs with
    | nil => simp only [operandValues]; split <;> simp
    | cons w ws =>
      simp only [operandValues, List.map_cons, List.cons.injEq, ← ih]
      split <;> simp_all

theorem operandKinds_length_le (i : Instr) : (operandKinds i).length ≤ 2 := by cases i <;> simp [operandKinds]

/-- No command takes more than two operands (rule R49). -/
theorem wordKinds_length_le (c : Cmd) : (wordKinds c).length ≤ 2 := by
  simp only [wordKinds]
  split
  · exact operandKinds_length_le _
  · simp

/-- The first operand travels on `a`, the second on `b` (rule R56). -/
theorem lanes_of_length_le {vs : List Value} (h : vs.length ≤ 2) :
    lanes vs = some ((vs[0]?.map Value.onA).getD 0, (vs[1]?.map Value.onB).getD 0) := by
  match vs with
  | [] | [_] | [_, _] => rfl
  | _ :: _ :: _ :: _ => simp at h

@[simp] theorem bindResult_none (r : Result) (ts : List (Nat × Value)) : bindResult none r ts = some ts := by
  simp [bindResult]

/-! Lines. -/

/-- Issuing a line: its operands have values of the kinds wanted, the command they make decodes to `i`, and `i` answers
`t`, whose result the line can bind. -/
theorem issueLine_of_exec {l : AsmLine} {e : EngineState} {vs : List Value} {a : Word} {b : Byte} {i : Instr} {t : State}
    {ts : List (Nat × Value)} (hv : operandValues e.temps l.operands = some vs) (hk : vs.map Value.kind = wordKinds l.cmd)
    (hl : lanes vs = some (a, b)) (hd : decode ⟨l.cmd, a, b⟩ = some i) (he : exec i e.block = .next t)
    (hb : bindResult l.dst t.result e.temps = some ts) : issueLine l e = some ⟨t, ts⟩ := by
  simp [issueLine, hv, hk, hl, transact_of_decode hd he, hb]

/-- Everything issuing a line can do when its operands have values of the kinds wanted: the command on its lanes is
transacted, and its result is bound. -/
theorem issueLine_of_kinds {l : AsmLine} {e : EngineState} {vs : List Value} (hv : operandValues e.temps l.operands = some vs)
    (hk : vs.map Value.kind = wordKinds l.cmd) {t : State}
    (ht : t = transact ⟨l.cmd, (vs[0]?.map Value.onA).getD 0, (vs[1]?.map Value.onB).getD 0⟩ e.block) :
    issueLine l e = (bindResult l.dst t.result e.temps).map (EngineState.mk t) := by
  have hl : vs.length ≤ 2 := by simpa [← hk] using wordKinds_length_le l.cmd
  subst ht
  simp only [issueLine, hv, hk, if_true, lanes_of_length_le hl]
  cases bindResult _ _ _ <;> rfl

theorem runActs_cons {x : EngineAct} {xs : List EngineAct} {e e' : EngineState} (h : act x e = some e') :
    runActs (x :: xs) e = runActs xs e' := by simp [runActs, h]

theorem runLines_nil (e : EngineState) : runLines [] e = some e := rfl

theorem runLines_cons {l : AsmLine} {ls : List AsmLine} {e e' : EngineState} (h : issueLine l e = some e') :
    runLines (l :: ls) e = runLines ls e' := runActs_cons h

end Sys2Proof.Machine
end

