-- ==== Sys2Proof/Laws/PerInstr.lean ====
section
/-! SUPPORT. Facts about every instruction as the model writes it, one lemma per constructor. -/

namespace Sys2Proof.Laws.EncodingIsDefined

/-- The encoder gives a command whose word is a defined one, by rule R53's own list of the reserved words. -/
def Statement (i : Instr) : Prop := (encode i).wf = true

/-- The word of rule R51 that an instruction is encoded to, and that it is not reserved. -/
theorem of_word {i : Instr} (w : Cmd) (hw : (encode i).cmd = w) (hr : reserved w = false) : Statement i := by
  simp [Statement, Command.wf, hw, hr]

theorem rdA : Statement (.rdA) := of_word 0x00#8 rfl (by decide)
theorem rdB : Statement (.rdB) := of_word 0x01#8 rfl (by decide)
theorem rdC : Statement (.rdC) := of_word 0x02#8 rfl (by decide)
theorem rdD : Statement (.rdD) := of_word 0x03#8 rfl (by decide)
theorem rdE : Statement (.rdE) := of_word 0x04#8 rfl (by decide)
theorem rdH : Statement (.rdH) := of_word 0x05#8 rfl (by decide)
theorem rdL : Statement (.rdL) := of_word 0x06#8 rfl (by decide)
theorem rdF : Statement (.rdF) := of_word 0x07#8 rfl (by decide)
theorem wrA (v : Byte) : Statement (.wrA v) := of_word 0x20#8 rfl (by decide)
theorem wrB (v : Byte) : Statement (.wrB v) := of_word 0x21#8 rfl (by decide)
theorem wrC (v : Byte) : Statement (.wrC v) := of_word 0x22#8 rfl (by decide)
theorem wrD (v : Byte) : Statement (.wrD v) := of_word 0x23#8 rfl (by decide)
theorem wrE (v : Byte) : Statement (.wrE v) := of_word 0x24#8 rfl (by decide)
theorem wrH (v : Byte) : Statement (.wrH v) := of_word 0x25#8 rfl (by decide)
theorem wrL (v : Byte) : Statement (.wrL v) := of_word 0x26#8 rfl (by decide)
theorem wrF (x : FV) : Statement (.wrF x) := of_word 0x27#8 rfl (by decide)
theorem rdAF : Statement (.rdAF) := of_word 0x40#8 rfl (by decide)
theorem rdBC : Statement (.rdBC) := of_word 0x41#8 rfl (by decide)
theorem rdDE : Statement (.rdDE) := of_word 0x42#8 rfl (by decide)
theorem rdHL : Statement (.rdHL) := of_word 0x43#8 rfl (by decide)
theorem rdPC : Statement (.rdPC) := of_word 0x44#8 rfl (by decide)
theorem rdSP : Statement (.rdSP) := of_word 0x45#8 rfl (by decide)
theorem wrAF (v : Word) : Statement (.wrAF v) := of_word 0x60#8 rfl (by decide)
theorem wrBC (v : Word) : Statement (.wrBC v) := of_word 0x61#8 rfl (by decide)
theorem wrDE (v : Word) : Statement (.wrDE v) := of_word 0x62#8 rfl (by decide)
theorem wrHL (v : Word) : Statement (.wrHL v) := of_word 0x63#8 rfl (by decide)
theorem wrPC (v : Word) : Statement (.wrPC v) := of_word 0x64#8 rfl (by decide)
theorem wrSP (v : Word) : Statement (.wrSP v) := of_word 0x65#8 rfl (by decide)
theorem fromB (v : Byte) : Statement (.fromB v) := of_word 0x80#8 rfl (by decide)
theorem toB (x : FV) : Statement (.toB x) := of_word 0x81#8 rfl (by decide)
theorem fAnd (x y : FV) : Statement (.fAnd x y) := of_word 0x82#8 rfl (by decide)
theorem fOr (x y : FV) : Statement (.fOr x y) := of_word 0x83#8 rfl (by decide)
theorem fXor (x y : FV) : Statement (.fXor x y) := of_word 0x84#8 rfl (by decide)
theorem fNot (x : FV) : Statement (.fNot x) := of_word 0x85#8 rfl (by decide)
theorem fEmpty : Statement (.fEmpty) := of_word 0x88#8 rfl (by decide)
theorem fCarry : Statement (.fCarry) := of_word 0x89#8 rfl (by decide)
theorem fHalf : Statement (.fHalf) := of_word 0x8A#8 rfl (by decide)
theorem fSub : Statement (.fSub) := of_word 0x8B#8 rfl (by decide)
theorem fZero : Statement (.fZero) := of_word 0x8C#8 rfl (by decide)

end Sys2Proof.Laws.EncodingIsDefined
end

