-- ==== Sys2Proof/Tests/Slice0.lean ====
section
/-! SUPPORT. Tests. Expected values are the spec's own: `30_encoding.md` rules R46 to R53 for words and reserved words,
the Example lines of the command rules, and `95_test_vectors.md` sections 1 and 2. -/

namespace Sys2Proof.Tests

open Sys2Proof.Machine

/-! Small states and observations. -/

/-- The test state S0 of `41_reg8.md`. -/
def s0regs : RegisterFile :=
  { A := 0x01, F := ⟨0x90⟩, B := 0x02, C := 0x03, D := 0x04, E := 0x05, H := 0x06, L := 0x07, PC := 0x0100, SP := 0xFFFE }

/-- The instance of `RESET` of `95_test_vectors.md` section 2.8. -/
def resetRegs : RegisterFile :=
  { A := 0xAA, F := ⟨0x5B⟩, B := 0xBB, C := 0xCC, D := 0xDD, E := 0xEE, H := 0x11, L := 0x22, PC := 0x1234, SP := 0x5678 }

/-- S0, with the engine about to present `ps`. -/
def at0 (ps : List PortIn) : State := { regs := s0regs, RESET := resetRegs, inputs := ps, result := .none }

/-- A command on the port, no reset. -/
def present (k : Cmd) (a : Word) (b : Byte) : PortIn := ⟨false, some ⟨k, a, b⟩⟩

def resultOf : Host.Outcome State Fault Refusal → Option Result
  | .next t => some t.result
  | .fault _ | .refused _ => none

def regsOf : Host.Outcome State Fault Refusal → Option RegisterFile
  | .next t => some t.regs
  | .fault _ | .refused _ => none

def refusalOf : Host.Outcome State Fault Refusal → Option Refusal
  | .refused r => some r
  | .next _ | .fault _ => none

/-- The state an outcome ends in; the argument itself where it ends in a stop. -/
def nextOr (s : State) : Host.Outcome State Fault Refusal → State
  | .next t => t
  | .fault _ | .refused _ => s

/-! Well-formedness: for each group of rule R53 an ill-formed command, which the check refuses, beside a well-formed one. -/

theorem test_wf_refuses_class_11 : Command.wf ⟨0xC0, 0, 0⟩ = false ∧ Command.wf ⟨0xFF, 0, 0⟩ = false := by decide
theorem test_wf_refuses_z : Command.wf ⟨0x08, 0, 0⟩ = false ∧ Command.wf ⟨0x10, 0, 0⟩ = false ∧
    Command.wf ⟨0x3F, 0, 0⟩ = false ∧ Command.wf ⟨0x48, 0, 0⟩ = false ∧ Command.wf ⟨0x7F, 0, 0⟩ = false := by decide
theorem test_wf_refuses_sel16 : Command.wf ⟨0x46, 0, 0⟩ = false ∧ Command.wf ⟨0x47, 0, 0⟩ = false ∧
    Command.wf ⟨0x66, 0, 0⟩ = false ∧ Command.wf ⟨0x67, 0, 0⟩ = false := by decide
theorem test_wf_refuses_fu_z : Command.wf ⟨0x90, 0, 0⟩ = false ∧ Command.wf ⟨0xBF, 0, 0⟩ = false := by decide
theorem test_wf_refuses_fu_fn : Command.wf ⟨0x86, 0, 0⟩ = false ∧ Command.wf ⟨0x87, 0, 0⟩ = false ∧
    Command.wf ⟨0x8D, 0, 0⟩ = false ∧ Command.wf ⟨0x8E, 0, 0⟩ = false ∧ Command.wf ⟨0x8F, 0, 0⟩ = false := by decide
theorem test_wf_accepts_edges : Command.wf ⟨0x07, 0xFFFF, 0xFF⟩ = true ∧ Command.wf ⟨0x20, 0, 0⟩ = true ∧
    Command.wf ⟨0x45, 0, 0⟩ = true ∧ Command.wf ⟨0x65, 0, 0⟩ = true ∧ Command.wf ⟨0x85, 0, 0⟩ = true ∧
    Command.wf ⟨0x8C, 0, 0⟩ = true := by decide

/-! Decoding, every constructor, each word written out from its format: R8 is `0 0 w 0 0 sel8`, R16 is `0 1 w 0 0 sel16`,
FU is `1 0 0 0 g fn` (rules R46 to R48). -/

theorem test_decode_r8_reads :
    decode ⟨0b00_0_00_000, 0xAB77, 0xCD⟩ = some .rdA ∧ decode ⟨0b00_0_00_001, 0xAB77, 0xCD⟩ = some .rdB ∧
    decode ⟨0b00_0_00_010, 0xAB77, 0xCD⟩ = some .rdC ∧ decode ⟨0b00_0_00_011, 0xAB77, 0xCD⟩ = some .rdD ∧
    decode ⟨0b00_0_00_100, 0xAB77, 0xCD⟩ = some .rdE ∧ decode ⟨0b00_0_00_101, 0xAB77, 0xCD⟩ = some .rdH ∧
    decode ⟨0b00_0_00_110, 0xAB77, 0xCD⟩ = some .rdL ∧ decode ⟨0b00_0_00_111, 0xAB77, 0xCD⟩ = some .rdF := by decide
theorem test_decode_r8_writes :
    decode ⟨0b00_1_00_000, 0xAB77, 0xCD⟩ = some (.wrA 0x77) ∧ decode ⟨0b00_1_00_001, 0xAB77, 0xCD⟩ = some (.wrB 0x77) ∧
    decode ⟨0b00_1_00_010, 0xAB77, 0xCD⟩ = some (.wrC 0x77) ∧ decode ⟨0b00_1_00_011, 0xAB77, 0xCD⟩ = some (.wrD 0x77) ∧
    decode ⟨0b00_1_00_100, 0xAB77, 0xCD⟩ = some (.wrE 0x77) ∧ decode ⟨0b00_1_00_101, 0xAB77, 0xCD⟩ = some (.wrH 0x77) ∧
    decode ⟨0b00_1_00_110, 0xAB77, 0xCD⟩ = some (.wrL 0x77) ∧ decode ⟨0b00_1_00_111, 0xAB77, 0xCD⟩ = some (.wrF ⟨0x77⟩) := by
  decide
theorem test_decode_r16_reads :
    decode ⟨0b01_0_00_000, 0xAB77, 0xCD⟩ = some .rdAF ∧ decode ⟨0b01_0_00_001, 0xAB77, 0xCD⟩ = some .rdBC ∧
    decode ⟨0b01_0_00_010, 0xAB77, 0xCD⟩ = some .rdDE ∧ decode ⟨0b01_0_00_011, 0xAB77, 0xCD⟩ = some .rdHL ∧
    decode ⟨0b01_0_00_100, 0xAB77, 0xCD⟩ = some .rdPC ∧ decode ⟨0b01_0_00_101, 0xAB77, 0xCD⟩ = some .rdSP := by decide
theorem test_decode_r16_writes :
    decode ⟨0b01_1_00_000, 0xAB77, 0xCD⟩ = some (.wrAF 0xAB77) ∧ decode ⟨0b01_1_00_001, 0xAB77, 0xCD⟩ = some (.wrBC 0xAB77) ∧
    decode ⟨0b01_1_00_010, 0xAB77, 0xCD⟩ = some (.wrDE 0xAB77) ∧ decode ⟨0b01_1_00_011, 0xAB77, 0xCD⟩ = some (.wrHL 0xAB77) ∧
    decode ⟨0b01_1_00_100, 0xAB77, 0xCD⟩ = some (.wrPC 0xAB77) ∧ decode ⟨0b01_1_00_101, 0xAB77, 0xCD⟩ = some (.wrSP 0xAB77) := by
  decide
theorem test_decode_fu_functions :
    decode ⟨0b10_00_0_000, 0xAB34, 0xCD⟩ = some (.fromB 0x34) ∧ decode ⟨0b10_00_0_001, 0xAB34, 0xCD⟩ = some (.toB ⟨0x34⟩) ∧
    decode ⟨0b10_00_0_010, 0xAB34, 0xCD⟩ = some (.fAnd ⟨0x34⟩ ⟨0xCD⟩) ∧
    decode ⟨0b10_00_0_011, 0xAB34, 0xCD⟩ = some (.fOr ⟨0x34⟩ ⟨0xCD⟩) ∧
    decode ⟨0b10_00_0_100, 0xAB34, 0xCD⟩ = some (.fXor ⟨0x34⟩ ⟨0xCD⟩) ∧
    decode ⟨0b10_00_0_101, 0xAB34, 0xCD⟩ = some (.fNot ⟨0x34⟩) := by decide
theorem test_decode_fu_constants :
    decode ⟨0b10_00_1_000, 0xFFFF, 0xFF⟩ = some .fEmpty ∧ decode ⟨0b10_00_1_001, 0xFFFF, 0xFF⟩ = some .fCarry ∧
    decode ⟨0b10_00_1_010, 0xFFFF, 0xFF⟩ = some .fHalf ∧ decode ⟨0b10_00_1_011, 0xFFFF, 0xFF⟩ = some .fSub ∧
    decode ⟨0b10_00_1_100, 0xFFFF, 0xFF⟩ = some .fZero := by decide
/-- The words of `95_test_vectors.md` section 2.7, and 0x2F of section 2.9. -/
theorem test_decode_refuses_reserved :
    ([0x08, 0x10, 0x1F, 0x28, 0x3F, 0x46, 0x47, 0x48, 0x66, 0x67, 0x7F, 0x86, 0x87, 0x8D, 0x8F, 0x90, 0xBF, 0xC0, 0xFF,
      0x2F] : List Cmd).all (fun k => decode ⟨k, 0, 0⟩ == none) = true := by decide
theorem test_decode_numbered :
    decodeTableWord 8 0x23 = some (.wrD 0) ∧ decodeTableWord 32 0xCD00347F = none ∧
    decodeTableWord 32 0x95003F82 = some (.fAnd ⟨0x3F⟩ ⟨0x95⟩) ∧ decodeTableWord 24 0xBEEF61 = some (.wrBC 0xBEEF) ∧
    decodeTableWord 8 0xBEEF61 = some (.wrBC 0) := by decide

/-! Reads from S0 (`95_test_vectors.md` sections 2.5 and 2.6). -/

theorem test_rd_byte_fields :
    resultOf (exec .rdA (at0 [])) = some (.byte 0x01) ∧ resultOf (exec .rdB (at0 [])) = some (.byte 0x02) ∧
    resultOf (exec .rdC (at0 [])) = some (.byte 0x03) ∧ resultOf (exec .rdD (at0 [])) = some (.byte 0x04) ∧
    resultOf (exec .rdE (at0 [])) = some (.byte 0x05) ∧ resultOf (exec .rdH (at0 [])) = some (.byte 0x06) ∧
    resultOf (exec .rdL (at0 [])) = some (.byte 0x07) ∧ resultOf (exec .rdF (at0 [])) = some (.fv ⟨0x90⟩) := by decide
theorem test_rd_words :
    resultOf (exec .rdAF (at0 [])) = some (.word 0x0190) ∧ resultOf (exec .rdBC (at0 [])) = some (.word 0x0203) ∧
    resultOf (exec .rdDE (at0 [])) = some (.word 0x0405) ∧ resultOf (exec .rdHL (at0 [])) = some (.word 0x0607) ∧
    resultOf (exec .rdPC (at0 [])) = some (.word 0x0100) ∧ resultOf (exec .rdSP (at0 [])) = some (.word 0xFFFE) := by decide

/-! Writes from S0 (`95_test_vectors.md` sections 2.5 and 2.6): every other field keeps its value. -/

theorem test_wr_byte_fields :
    regsOf (exec (.wrA 0xFF) (at0 [])) = some { s0regs with A := 0xFF } ∧
    regsOf (exec (.wrB 0x00) (at0 [])) = some { s0regs with B := 0x00 } ∧
    regsOf (exec (.wrC 0x80) (at0 [])) = some { s0regs with C := 0x80 } ∧
    regsOf (exec (.wrD 0x7F) (at0 [])) = some { s0regs with D := 0x7F } ∧
    regsOf (exec (.wrE 0x55) (at0 [])) = some { s0regs with E := 0x55 } ∧
    regsOf (exec (.wrH 0xAA) (at0 [])) = some { s0regs with H := 0xAA } ∧
    regsOf (exec (.wrL 0x01) (at0 [])) = some { s0regs with L := 0x01 } ∧
    regsOf (exec (.wrF ⟨0x3C⟩) (at0 [])) = some { s0regs with F := ⟨0x3C⟩ } := by decide
theorem test_wr_words :
    regsOf (exec (.wrAF 0x1234) (at0 [])) = some { s0regs with A := 0x12, F := ⟨0x34⟩ } ∧
    regsOf (exec (.wrBC 0xBEEF) (at0 [])) = some { s0regs with B := 0xBE, C := 0xEF } ∧
    regsOf (exec (.wrDE 0x00FF) (at0 [])) = some { s0regs with D := 0x00, E := 0xFF } ∧
    regsOf (exec (.wrHL 0xFF00) (at0 [])) = some { s0regs with H := 0xFF, L := 0x00 } ∧
    regsOf (exec (.wrPC 0xFFFF) (at0 [])) = some { s0regs with PC := 0xFFFF } ∧
    regsOf (exec (.wrSP 0x0000) (at0 [])) = some { s0regs with SP := 0x0000 } := by decide
theorem test_wr_has_no_result :
    resultOf (exec (.wrB 0x77) { at0 [] with result := .byte 9 }) = some .none ∧
    resultOf (exec (.wrAF 0x1234) { at0 [] with result := .byte 9 }) = some .none := by decide

/-! The flags_unit (`95_test_vectors.md` sections 2.1 to 2.3). -/

theorem test_conversions :
    resultOf (exec (.fromB 0x0F) (at0 [])) = some (.fv ⟨0x0F⟩) ∧ resultOf (exec (.toB ⟨0x0F⟩) (at0 [])) = some (.byte 0x00) ∧
    resultOf (exec (.toB ⟨0x6F⟩) (at0 [])) = some (.byte 0x60) ∧ resultOf (exec (.toB ⟨0xFF⟩) (at0 [])) = some (.byte 0xF0) := by
  decide
theorem test_algebra :
    resultOf (exec (.fAnd ⟨0x3F⟩ ⟨0x95⟩) (at0 [])) = some (.fv ⟨0x15⟩) ∧
    resultOf (exec (.fOr ⟨0x81⟩ ⟨0x12⟩) (at0 [])) = some (.fv ⟨0x93⟩) ∧
    resultOf (exec (.fXor ⟨0x9A⟩ ⟨0x33⟩) (at0 [])) = some (.fv ⟨0xA9⟩) ∧
    resultOf (exec (.fNot ⟨0x90⟩) (at0 [])) = some (.fv ⟨0x6F⟩) ∧
    resultOf (exec (.fNot ⟨0x34⟩) (at0 [])) = some (.fv ⟨0xCB⟩) := by decide
theorem test_constants :
    resultOf (exec .fEmpty (at0 [])) = some (.fv ⟨0x00⟩) ∧ resultOf (exec .fCarry (at0 [])) = some (.fv ⟨0x10⟩) ∧
    resultOf (exec .fHalf (at0 [])) = some (.fv ⟨0x20⟩) ∧ resultOf (exec .fSub (at0 [])) = some (.fv ⟨0x40⟩) ∧
    resultOf (exec .fZero (at0 [])) = some (.fv ⟨0x80⟩) ∧ regsOf (exec .fZero (at0 [])) = some s0regs := by decide
/-- `95_test_vectors.md` section 2.4, rows and the non-canonical cases. -/
theorem test_render :
    FV.render ⟨0x00⟩ = "<empty>" ∧ FV.render ⟨0x30⟩ = "H | C" ∧ FV.render ⟨0x50⟩ = "N | C" ∧ FV.render ⟨0x60⟩ = "N | H" ∧
    FV.render ⟨0x80⟩ = "Z" ∧ FV.render ⟨0x90⟩ = "Z | C" ∧ FV.render ⟨0xF0⟩ = "Z | N | H | C" ∧
    FV.render ⟨0x0F⟩ = "<empty>" ∧ FV.render ⟨0x9F⟩ = "Z | C" := by decide

/-! Steps (`95_test_vectors.md` sections 2.7 and 2.8). -/

theorem test_step_runs_the_command :
    regsOf (step (at0 [present 0x21 0xAB77 0xFF])) = some { s0regs with B := 0x77 } := by decide
theorem test_step_refuses_reserved : refusalOf (step (at0 [present 0x46 0 0])) = some (.illegalCommand 0x46) := by decide
theorem test_transact_reserved :
    (transact ⟨0xFF, 0x1234, 0x56⟩ (at0 [])).regs = s0regs ∧ (transact ⟨0xFF, 0x1234, 0x56⟩ (at0 [])).result = .illegal := by
  decide
theorem test_step_reset : regsOf (step (at0 [⟨true, none⟩])) = some resetRegs := by decide
theorem test_step_reset_wins :
    regsOf (step (at0 [⟨true, some ⟨0x21, 0x77, 0⟩⟩])) = some resetRegs ∧
    regsOf (step (at0 [⟨true, some ⟨0xFF, 0, 0⟩⟩])) = some resetRegs ∧
    resultOf (step (at0 [⟨true, some ⟨0xFF, 0, 0⟩⟩])) = some .none := by decide
theorem test_step_idle :
    regsOf (step (at0 [⟨false, none⟩])) = some s0regs ∧ regsOf (step (at0 [])) = some s0regs ∧
    resultOf (step { at0 [] with result := .word 3 }) = some .none := by decide
theorem test_read_after_reset :
    resultOf (exec .rdAF (State.resetWith resetRegs)) = some (.word 0xAA50) := by decide
/-- The first instruction after reset runs, whatever `RESET` is. -/
theorem test_first_instruction_after_reset :
    resultOf (step (State.reset.withFetchWord 8 0x89)) = some (.fv ⟨0x10⟩) ∧
    refusalOf (step (State.reset.withFetchWord 8 0x89)) = none ∧
    resultOf (step (State.reset.withFetchWord 8 0x64)) = some .none := by decide

/-! The engine's lines (rule R56). -/

theorem test_line_text :
    AsmLine.text ⟨none, 0x60, [.lit (.word 0x1234)]⟩ = "WR AF, 0x1234" ∧
    AsmLine.text ⟨some 3, 0x81, [.temp 2]⟩ = "t3 = TOB t2" ∧
    AsmLine.text ⟨some 0, 0x82, [.lit (.fv ⟨0x3F⟩), .temp 1]⟩ = "t0 = FAND fv:0x3F, t1" ∧
    AsmLine.text ⟨some 0, 0x07, []⟩ = "t0 = RD F" := by decide
/-- An FV is not issued as a byte, nor a byte as an FV (rule R50). -/
theorem test_line_ill_typed :
    issueLine ⟨none, 0x20, [.lit (.fv ⟨1⟩)]⟩ ⟨at0 [], []⟩ = none ∧
    issueLine ⟨none, 0x27, [.lit (.byte 1)]⟩ ⟨at0 [], []⟩ = none ∧
    issueLine ⟨none, 0x27, [.temp 0]⟩ ⟨at0 [], []⟩ = none := by decide

/-! Witnesses: for each statement with hypotheses, a concrete case that meets them all. -/

theorem test_witness_WritePairsSplitTheWord : ∃ t, exec (.wrAF 0x1234) (at0 []) = .next t ∧ t.regs.F.raw = 0x34 :=
  ⟨_, rfl, rfl⟩
theorem test_witness_ConstantsAreDisjointSingletons : FlagName.carry ≠ FlagName.zero := by decide
theorem test_witness_AnyFlagCombinationIsOneExportedByte :
    (∀ k, FV.has ⟨0x9F⟩ k = (k == .zero || k == .carry)) ∧ (∀ k, FV.has ⟨0x90⟩ k = (k == .zero || k == .carry)) ∧
    FV.canonical ⟨0x90⟩ = true ∧ FV.canonical ⟨0x9F⟩ = false := by
  refine ⟨?_, ?_, by decide, by decide⟩ <;> intro k <;> cases k <;> decide
theorem test_witness_LastWriteWinsAndWritesCommute : Reg8.A ≠ Reg8.L := by decide
theorem test_witness_FieldIsolation :
    ∃ t, exec (.wrDE 0xBEEF) (at0 []) = .next t ∧ t.regs.D ≠ (at0 []).regs.D ∧ t.regs.E ≠ (at0 []).regs.E :=
  ⟨_, rfl, by decide, by decide⟩
theorem test_witness_EveryCommandIsIdempotent : ∃ t, exec (.wrHL 0xBEEF) (at0 []) = .next t := ⟨_, rfl⟩
theorem test_witness_OnlyReservedWordsAreRefused :
    reserved 0x46 = true ∧ refusalOf (step (at0 [present 0x46 0 0])) = some (.illegalCommand 0x46) ∧
    reserved 0x45 = false ∧ refusalOf (step (at0 [present 0x45 0 0])) = none := by decide
theorem test_witness_IllegalCommandChangesNothing :
    reserved 0x1F = true ∧ reserved 0x20 = false ∧ reserved 0x8C = false ∧ reserved 0x8D = true := by decide
theorem test_witness_ResetIsWholeAndDominant :
    (at0 [⟨true, some ⟨0xFF, 0, 0⟩⟩]).inputs = ⟨true, some ⟨0xFF, 0, 0⟩⟩ :: [] ∧ (at0 []).RESET ≠ (at0 []).regs := by decide
theorem test_witness_IdleStepsHoldTheState :
    (∀ p ∈ (at0 [⟨false, none⟩, present 0x21 1 0]).inputs.take 1, p = ⟨false, none⟩) ∧
    (∀ p ∈ (at0 []).inputs.take 1000, p = ⟨false, none⟩) := by decide
theorem test_witness_StepRunsTheDecodedCommand :
    (at0 [present 0x64 0xC350 0]).inputs = ⟨false, some ⟨0x64, 0xC350, 0⟩⟩ :: [] ∧
    decode ⟨0x64, 0xC350, 0⟩ = some (.wrPC 0xC350) ∧ decodeTableWord 24 0xC35064 = some (.wrPC 0xC350) := by decide
theorem test_witness_EncodeOfDecodeIsTheCommand :
    decode ⟨0x20, 0xAB77, 0xCD⟩ = some (.wrA 0x77) ∧ encode (.wrA 0x77) = ⟨0x20, 0x0077, 0x00⟩ ∧
    decode ⟨0x82, 0xAB34, 0xCD⟩ = some (.fAnd ⟨0x34⟩ ⟨0xCD⟩) := by decide
theorem test_witness_DefinedWordsAreTheOpcodeMap : reserved 0xC0 = true ∧ (decode ⟨0x00, 0, 0⟩).isSome = true := by decide
theorem test_witness_UnusedOperandBitsAreIgnored :
    decode ⟨0x21, 0xAB77, 0xCD⟩ = some (.wrB 0x77) ∧
    (0x0077 : Word) &&& usedA (.wrB 0x77) = 0xAB77 &&& usedA (.wrB 0x77) ∧
    (0x00 : Byte) &&& usedB (.wrB 0x77) = 0xCD &&& usedB (.wrB 0x77) := by decide
theorem test_witness_PcChangesOnlyByWrPcOrReset :
    (regsOf (step (at0 [present 0x64 0xFFFF 0]))).map RegisterFile.PC = some 0xFFFF ∧
    (regsOf (step (at0 [⟨true, none⟩]))).map RegisterFile.PC = some 0x1234 := by decide
theorem test_witness_SpChangesOnlyByWrSpOrReset :
    (regsOf (step (at0 [present 0x65 0x0000 0]))).map RegisterFile.SP = some 0x0000 ∧
    (regsOf (step (at0 [⟨true, none⟩]))).map RegisterFile.SP = some 0x5678 := by decide
theorem test_witness_FlagsChangeOnlyByWrFWrAfOrReset :
    (regsOf (step (at0 [present 0x27 0x3C 0]))).map RegisterFile.F = some ⟨0x3C⟩ ∧
    (regsOf (step (at0 [present 0x60 0x1234 0]))).map RegisterFile.F = some ⟨0x34⟩ ∧
    (regsOf (step (at0 [⟨true, none⟩]))).map RegisterFile.F = some ⟨0x5B⟩ := by decide
theorem test_witness_HiddenNibbleIsUnobservable :
    FV.flagEq ⟨0x90⟩ ⟨0x9F⟩ = true ∧ FV.flagEq ⟨0x0F⟩ ⟨0x00⟩ = true ∧ instrFlagEq (.fAnd ⟨0x90⟩ ⟨0x31⟩) (.fAnd ⟨0x9F⟩ ⟨0x3E⟩) ∧
    regsFlagEq s0regs { s0regs with F := ⟨0x9F⟩ } := by decide
theorem test_witness_RunsOfFlagEqualMachinesStayFlagEqual :
    stateFlagEq { at0 [present 0x27 0x3C 0, present 0x81 0x3C 0xFF] with result := .fv ⟨0x11⟩ }
      { regs := { s0regs with F := ⟨0x95⟩ }, RESET := { resetRegs with F := ⟨0x50⟩ }
        inputs := [present 0x27 0x33 0, present 0x81 0xFF3F 0x00], result := .fv ⟨0x1F⟩ } := by decide
theorem test_witness_SafeStatesStepToSafeStates :
    (at0 [present 0x45 0 0, ⟨true, some ⟨0xFF, 0, 0⟩⟩, ⟨false, none⟩]).safe = true ∧
    (at0 [present 0x45 0 0, present 0x46 0 0]).safe = false := by decide
theorem test_witness_ResetStateIsSafe :
    ∀ p ∈ [present 0x65 1 2, present 0x8C 0 0, ⟨false, none⟩], ∀ c, p.command = some c → c.wf = true := by
  intro p hp c hc
  simp only [List.mem_cons, List.not_mem_nil, or_false] at hp
  rcases hp with rfl | rfl | rfl <;> simp only [present, Option.some.injEq, reduceCtorEq] at hc
  · subst hc; decide
  · subst hc; decide
theorem test_witness_CanonicalRunIsKept :
    { at0 [present 0x27 0x30 0, present 0x60 0x12F0 0, present 0x85 0x90 0] with
        RESET := { resetRegs with F := ⟨0x50⟩ } : State }.canonicalRun = true ∧
    (at0 []).canonicalRun = false ∧
    { at0 [present 0x60 0x1234 0] with RESET := s0regs : State }.canonicalRun = false := by decide
theorem test_witness_StepTakesOneInputAndKeepsReset : ∃ t, step (at0 [present 0x20 7 0, ⟨false, none⟩]) = .next t := ⟨_, rfl⟩
theorem test_witness_ReadsSeeTheMostRecentWrite :
    (at0 [present 0x23 0x11 0, present 0x42 0 0]).inputs = ⟨false, some ⟨0x23, 0x11, 0⟩⟩ :: ⟨false, some ⟨0x42, 0, 0⟩⟩ :: [] ∧
    decode ⟨0x23, 0x11, 0⟩ = some (.wrD 0x11) ∧ decode ⟨0x42, 0, 0⟩ = some .rdDE := by decide
theorem test_witness_PseudoInstructionEffects : Reg16.BC ≠ .AF ∧ Reg16.SP ≠ .AF ∧ mov16 .AF .BC = none := by decide
/-- One line for each clause: issued, issued with a binding, a binding of no data. -/
theorem test_witness_FlagsValuesGoOnlyWhereFlagsAreWanted :
    (issueLine ⟨none, 0x27, [.temp 0]⟩ ⟨at0 [], [(0, .fv ⟨0x34⟩)]⟩).map (fun e => e.block.regs.F) = some ⟨0x34⟩ ∧
    [Operand.lit (.fv ⟨0x3F⟩), .temp 0].map (Operand.value [(0, .fv ⟨0x31⟩)]) =
      [Value.fv ⟨0x3F⟩, .fv ⟨0x31⟩].map some ∧
    [Value.fv ⟨0x3F⟩, .fv ⟨0x31⟩].map Value.kind = wordKinds 0x82 ∧
    resultValue (transact ⟨0x82, 0x3F, 0x31⟩ (at0 [])).result = some (.fv ⟨0x31⟩) ∧
    [Value.word 0x1234].map Value.kind = wordKinds 0x60 ∧
    resultValue (transact ⟨0x60, 0x1234, 0⟩ (at0 [])).result = none := by decide

end Sys2Proof.Tests
end

section
/-! SUPPORT. The decoder and the encoder: what each format's word decodes to, the round trip from the instruction, and
that whether a word is defined does not depend on the operands (rules R46 to R49, R53). -/

namespace Sys2Proof

theorem decode_wordR8 (w : Bool) (sel : BitVec 3) (a : Word) (b : Byte) :
    decode ⟨wordR8 w sel, a, b⟩ = decodeR8 w sel a := by
  have fields : ∀ (w : Bool) (sel : BitVec 3), (cmdCls (wordR8 w sel)).toNat = 0 ∧ cmdZ (wordR8 w sel) = 0#2 ∧
      cmdW (wordR8 w sel) = w ∧ cmdSel (wordR8 w sel) = sel := by decide
  obtain ⟨hcls, hz, hw, hsel⟩ := fields w sel
  simp [decode, decodeWord, hcls, hz, hw, hsel]

theorem decode_wordR16 (w : Bool) (sel : BitVec 3) (a : Word) (b : Byte) :
    decode ⟨wordR16 w sel, a, b⟩ = decodeR16 w sel a := by
  have fields : ∀ (w : Bool) (sel : BitVec 3), (cmdCls (wordR16 w sel)).toNat = 1 ∧ cmdZ (wordR16 w sel) = 0#2 ∧
      cmdW (wordR16 w sel) = w ∧ cmdSel (wordR16 w sel) = sel := by decide
  obtain ⟨hcls, hz, hw, hsel⟩ := fields w sel
  simp [decode, decodeWord, hcls, hz, hw, hsel]

theorem decode_wordFU (g : Bool) (fn : BitVec 3) (a : Word) (b : Byte) :
    decode ⟨wordFU g fn, a, b⟩ = decodeFU g fn a b := by
  have fields : ∀ (g : Bool) (fn : BitVec 3), (cmdCls (wordFU g fn)).toNat = 2 ∧ cmdFuZ (wordFU g fn) = 0#2 ∧
      cmdG (wordFU g fn) = g ∧ cmdSel (wordFU g fn) = fn := by decide
  obtain ⟨hcls, hz, hg, hfn⟩ := fields g fn
  simp [decode, decodeWord, hcls, hz, hg, hfn]

/-- Decoding undoes encoding, for every instruction with every operand. -/
theorem decode_encode (i : Instr) : decode (encode i) = some i := by
  cases i with
  | rdA | rdB | rdC | rdD | rdE | rdH | rdL | rdF => exact decode_wordR8 ..
  | wrA | wrB | wrC | wrD | wrE | wrH | wrL | wrF => simp [encode, decode_wordR8, decodeR8, sel8, sel8F]
  | rdAF | rdBC | rdDE | rdHL | rdPC | rdSP | wrAF | wrBC | wrDE | wrHL | wrPC | wrSP => exact decode_wordR16 ..
  | fromB | toB | fAnd | fOr | fXor | fNot => simp [encode, decode_wordFU, decodeFU]
  | fEmpty | fCarry | fHalf | fSub | fZero => exact decode_wordFU ..

/-- Whether a command word is defined does not depend on the operand lanes (rule R53). -/
theorem decode_isSome_lanes (k : Cmd) (a a' : Word) (b b' : Byte) :
    (decode ⟨k, a, b⟩).isSome = (decode ⟨k, a', b'⟩).isSome := by
  have r8 : ∀ w sel, (decodeR8 w sel a).isSome = (decodeR8 w sel a').isSome := by
    intro w sel; unfold decodeR8; split <;> rfl
  have r16 : ∀ w sel, (decodeR16 w sel a).isSome = (decodeR16 w sel a').isSome := by
    intro w sel; unfold decodeR16; split <;> rfl
  have fu : ∀ g fn, (decodeFU g fn a b).isSome = (decodeFU g fn a' b').isSome := by
    intro g fn; unfold decodeFU; split <;> rfl
  simp only [decode, decodeWord]
  split
  · split
    · exact r8 ..
    · rfl
  · split
    · exact r16 ..
    · rfl
  · split
    · exact fu ..
    · rfl
  · rfl

theorem decode_none_lanes {k : Cmd} {a : Word} {b : Byte} (h : decode ⟨k, a, b⟩ = none) (a' : Word) (b' : Byte) :
    decode ⟨k, a', b'⟩ = none := by
  simpa [h] using (decode_isSome_lanes k a a' b b').symm

end Sys2Proof
end

section
/-! SUPPORT. Flags values: the exported byte and the four flags determine each other, and masking commutes with the set
algebra (rules R14, R71, R74, R77). -/

namespace Sys2Proof.Machine

theorem flagEq_iff {x y : FV} : x.flagEq y = true ↔ x.toByte = y.toByte := by simp [FV.flagEq]

/-- Two Flags values have the same exported byte exactly when the same flags are set in them. -/
theorem toByte_eq_iff_has {x y : FV} : x.toByte = y.toByte ↔ ∀ k, x.has k = y.has k := by
  constructor
  · intro h k
    simp only [FV.has, h]
  · intro h
    apply BitVec.eq_of_getLsbD_eq
    intro n hn
    rcases Nat.lt_or_ge n 4 with hlow | hhigh
    · simp [toByte_getLsbD, Nat.not_le.mpr hlow]
    · have flagAt : ∃ k : FlagName, k.bit = n := by
        have hcases : n = 4 ∨ n = 5 ∨ n = 6 ∨ n = 7 := by omega
        rcases hcases with rfl | rfl | rfl | rfl
        exacts [⟨.carry, rfl⟩, ⟨.halfCarry, rfl⟩, ⟨.subtraction, rfl⟩, ⟨.zero, rfl⟩]
      obtain ⟨k, rfl⟩ := flagAt
      exact h k

/-- The rendering reads a Flags value through its four flags alone (rule R79). -/
theorem render_eq_of_has {x y : FV} (h : ∀ k, x.has k = y.has k) : x.render = y.render := by
  simp only [FV.render, FV.tokens, funext h]

theorem toByte_inter (x y : FV) : (x.inter y).toByte = x.toByte &&& y.toByte := by
  apply BitVec.eq_of_getLsbD_eq
  intro n _
  by_cases h : 4 ≤ n <;> simp [toByte_getLsbD, FV.inter, h]

theorem toByte_union (x y : FV) : (x.union y).toByte = x.toByte ||| y.toByte := by
  apply BitVec.eq_of_getLsbD_eq
  intro n _
  by_cases h : 4 ≤ n <;> simp [toByte_getLsbD, FV.union, h]

theorem toByte_symmDiff (x y : FV) : (x.symmDiff y).toByte = x.toByte ^^^ y.toByte := by
  apply BitVec.eq_of_getLsbD_eq
  intro n _
  by_cases h : 4 ≤ n <;> simp [toByte_getLsbD, FV.symmDiff, h]

theorem toByte_compl (x : FV) : x.compl.toByte = ~~~x.toByte &&& 0xF0#8 := by
  have h : ∀ r : Byte, ~~~r &&& 0xF0#8 = ~~~(r &&& 0xF0#8) &&& 0xF0#8 := by decide
  exact h x.raw

/-- The raw bits, lowest first, of the set of the flags chosen by `p` (rule R14). -/
def flagBits (p : FlagName → Bool) : List Bool :=
  [false, false, false, false, p .carry, p .halfCarry, p .subtraction, p .zero]

/-- The Flags value in which exactly the flags chosen by `p` are set, its low nibble zero. -/
def flagsOf (p : FlagName → Bool) : FV := ⟨BitVec.ofBoolListLE (flagBits p)⟩

theorem flagsOf_getLsbD (p : FlagName → Bool) (n : Nat) : (flagsOf p).raw.getLsbD n = (flagBits p).getD n false :=
  BitVec.getLsbD_ofBoolListLE

theorem flagsOf_has (p : FlagName → Bool) (k : FlagName) : (flagsOf p).has k = p k := by
  rw [has_eq_raw, flagsOf_getLsbD]
  cases k <;> rfl

theorem flagsOf_toByte (p : FlagName → Bool) : (flagsOf p).toByte = (flagsOf p).raw := by
  apply BitVec.eq_of_getLsbD_eq
  intro n _
  rcases Nat.lt_or_ge n 4 with hlow | hhigh
  · have hbit : (flagsOf p).raw.getLsbD n = false := by
      rw [flagsOf_getLsbD]
      have hcases : n = 0 ∨ n = 1 ∨ n = 2 ∨ n = 3 := by omega
      rcases hcases with rfl | rfl | rfl | rfl <;> rfl
    simp [toByte_getLsbD, hbit]
  · simp [toByte_getLsbD, hhigh]

/-- A canonical Flags value is determined by its exported byte. -/
theorem eq_of_canonical {x y : FV} (hx : x.canonical = true) (hy : y.canonical = true) (h : x.toByte = y.toByte) :
    x = y := by
  have hx' : x.raw = x.toByte := by simpa [FV.canonical] using hx
  have hy' : y.raw = y.toByte := by simpa [FV.canonical] using hy
  have hraw : x.raw = y.raw := by rw [hx', hy', h]
  cases x; cases y; cases hraw; rfl

/-- Settles O14: the flags chosen, with a zero low nibble, are the one canonical value; any value with the same flags
exports the same byte. -/
theorem anyFlagCombinationIsOneExportedByte : Obligations.AnyFlagCombinationIsOneExportedByte := by
  intro p
  have hcanon : (flagsOf p).canonical = true := by simp [FV.canonical, flagsOf_toByte]
  refine ⟨flagsOf p, flagsOf_has p, hcanon, fun y hy => ?_⟩
  have hbyte : y.toByte = (flagsOf p).toByte := toByte_eq_iff_has.mpr fun k => (hy k).trans (flagsOf_has p k).symm
  exact ⟨hbyte.trans (flagsOf_toByte p), fun hyc => eq_of_canonical hyc hcanon hbyte⟩

end Sys2Proof.Machine
end

section
/-! SUPPORT. What a command and a step can change, said once; the statements about the fields a command or a step may
change (rules R17, R19, R20, R22, R27). -/

namespace Sys2Proof.Machine

/-- The WR command of a 16-bit view or field (rules R111 to R116). -/
def writeCommand16 (p : Reg16) (v : Word) : Instr :=
  match p with
  | .AF => .wrAF v
  | .BC => .wrBC v
  | .DE => .wrDE v
  | .HL => .wrHL v
  | .PC => .wrPC v
  | .SP => .wrSP v

/-- Everything a command can do: give a result and leave the fields alone, or store into the object its WR names. -/
theorem exec_cases (i : Instr) (s : State) :
    (∃ r, exec i s = .next (s.answer r)) ∨
    (∃ q v, i = writeCommand q v ∧ exec i s = .next (s.store (s.regs.set8 q v))) ∨
    (∃ x, i = .wrF x ∧ exec i s = .next (s.store (s.regs.setF x))) ∨
    (∃ p v, i = writeCommand16 p v ∧ exec i s = .next (s.store (s.regs.set16 p v))) := by
  cases i with
  | rdA | rdB | rdC | rdD | rdE | rdH | rdL | rdF => exact .inl ⟨_, rfl⟩
  | rdAF | rdBC | rdDE | rdHL | rdPC | rdSP => exact .inl ⟨_, rfl⟩
  | fromB | toB | fAnd | fOr | fXor | fNot => exact .inl ⟨_, rfl⟩
  | fEmpty | fCarry | fHalf | fSub | fZero => exact .inl ⟨_, rfl⟩
  | wrA v => exact .inr (.inl ⟨.A, v, rfl, rfl⟩)
  | wrB v => exact .inr (.inl ⟨.B, v, rfl, rfl⟩)
  | wrC v => exact .inr (.inl ⟨.C, v, rfl, rfl⟩)
  | wrD v => exact .inr (.inl ⟨.D, v, rfl, rfl⟩)
  | wrE v => exact .inr (.inl ⟨.E, v, rfl, rfl⟩)
  | wrH v => exact .inr (.inl ⟨.H, v, rfl, rfl⟩)
  | wrL v => exact .inr (.inl ⟨.L, v, rfl, rfl⟩)
  | wrF x => exact .inr (.inr (.inl ⟨x, rfl, rfl⟩))
  | wrAF v => exact .inr (.inr (.inr ⟨.AF, v, rfl, rfl⟩))
  | wrBC v => exact .inr (.inr (.inr ⟨.BC, v, rfl, rfl⟩))
  | wrDE v => exact .inr (.inr (.inr ⟨.DE, v, rfl, rfl⟩))
  | wrHL v => exact .inr (.inr (.inr ⟨.HL, v, rfl, rfl⟩))
  | wrPC v => exact .inr (.inr (.inr ⟨.PC, v, rfl, rfl⟩))
  | wrSP v => exact .inr (.inr (.inr ⟨.SP, v, rfl, rfl⟩))

/-- Everything a command can do when it answers the next state `t`. -/
theorem exec_next_cases {i : Instr} {s t : State} (h : exec i s = .next t) :
    (∃ r, t = s.answer r) ∨
    (∃ q v, i = writeCommand q v ∧ t = s.store (s.regs.set8 q v)) ∨
    (∃ x, i = .wrF x ∧ t = s.store (s.regs.setF x)) ∨
    (∃ p v, i = writeCommand16 p v ∧ t = s.store (s.regs.set16 p v)) := by
  simpa only [h, Host.Outcome.next.injEq] using exec_cases i s

/-- No command touches the port's parameter or its coming inputs (rules R43, R58). -/
theorem exec_frame {i : Instr} {s t : State} (h : exec i s = .next t) : t.RESET = s.RESET ∧ t.inputs = s.inputs := by
  obtain ⟨r, rfl⟩ | ⟨q, v, -, rfl⟩ | ⟨x, -, rfl⟩ | ⟨p, v, -, rfl⟩ := exec_next_cases h <;> exact ⟨rfl, rfl⟩

/-- Settles O22, by what a command can do: a field differs only after a store into it or into its pair. -/
theorem fieldIsolation : Obligations.FieldIsolation := by
  intro i s t h
  obtain ⟨r, rfl⟩ | ⟨q, v, rfl, rfl⟩ | ⟨x, rfl, rfl⟩ | ⟨p, v, rfl, rfl⟩ := exec_next_cases h
  · simp
  · cases q <;> simp [writeCommand, RegisterFile.set8]
  · simp [RegisterFile.setF]
  · cases p <;> simp [writeCommand16]

/-- A part of the register file differs after a step only by a reset, which makes it that of `RESET`, or by the command
presented without reset. -/
theorem step_change_cases {α : Type} (f : RegisterFile → α) {s t : State} (h : step s = .next t)
    (hne : f t.regs ≠ f s.regs) :
    ∃ p rest, s.inputs = p :: rest ∧
      ((p.rst = true ∧ f t.regs = f s.RESET) ∨
       (p.rst = false ∧ ∃ c i, p.command = some c ∧ decode c = some i ∧ exec i (s.withInputs rest) = .next t)) := by
  obtain ⟨-, rfl⟩ | ⟨c, rest, hin, rfl⟩ | ⟨rest, -, rfl⟩ | ⟨c, rest, i, hin, hd, he⟩ := step_next_cases h
  · exact absurd rfl hne
  · exact ⟨_, rest, hin, .inl ⟨rfl, rfl⟩⟩
  · exact absurd rfl hne
  · exact ⟨_, rest, hin, .inr ⟨rfl, c, i, rfl, hd, he⟩⟩

theorem exec_PC_changed {i : Instr} {s t : State} (h : exec i s = .next t) (hne : t.regs.PC ≠ s.regs.PC) :
    ∃ v, i = .wrPC v ∧ t.regs.PC = v := by
  obtain ⟨-, -, -, -, -, -, -, -, hPC, -⟩ := fieldIsolation i s t h
  obtain ⟨v, rfl⟩ := hPC.resolve_left hne
  exact ⟨v, rfl, by rw [write16_next.mp h]; rfl⟩

theorem exec_SP_changed {i : Instr} {s t : State} (h : exec i s = .next t) (hne : t.regs.SP ≠ s.regs.SP) :
    ∃ v, i = .wrSP v ∧ t.regs.SP = v := by
  obtain ⟨-, -, -, -, -, -, -, -, -, hSP, -⟩ := fieldIsolation i s t h
  obtain ⟨v, rfl⟩ := hSP.resolve_left hne
  exact ⟨v, rfl, by rw [write16_next.mp h]; rfl⟩

theorem exec_F_changed {i : Instr} {s t : State} (h : exec i s = .next t) (hne : t.regs.F ≠ s.regs.F) :
    i = .wrF t.regs.F ∨ ∃ v, i = .wrAF v ∧ t.regs.F = FV.fromByte (lo v) := by
  obtain ⟨-, hF, -⟩ := fieldIsolation i s t h
  obtain ⟨x, rfl⟩ | ⟨v, rfl⟩ := hF.resolve_left hne
  · cases h; exact .inl rfl
  · exact .inr ⟨v, rfl, by rw [write16_next.mp h]; rfl⟩

theorem lo_eq_ofNat (w : Word) : lo w = BitVec.ofNat 8 w.toNat := laneByte_eq_ofNat w

/-- A word field that a command changes only as its own WR does is changed by a step only by that WR or by reset. -/
theorem step_change_of_word_field (f : RegisterFile → Word) (wr : Word → Instr)
    (hwr : ∀ {i : Instr} {s t : State}, exec i s = .next t → f t.regs ≠ f s.regs → ∃ v, i = wr v ∧ f t.regs = v)
    {s t : State} (h : step s = .next t) (hne : f t.regs ≠ f s.regs) :
    ∃ p rest, s.inputs = p :: rest ∧
      ((p.rst = true ∧ f t.regs = f s.RESET) ∨
       (p.rst = false ∧ ∃ c, p.command = some c ∧ ∃ v, decode c = some (wr v) ∧ f t.regs = v)) := by
  obtain ⟨p, rest, hin, hreset | ⟨hrst, c, i, hc, hd, he⟩⟩ := step_change_cases f h hne
  · exact ⟨p, rest, hin, .inl hreset⟩
  · obtain ⟨v, rfl, hv⟩ := hwr he hne
    exact ⟨p, rest, hin, .inr ⟨hrst, c, hc, v, hd, hv⟩⟩

/-- Settles O36, by field isolation: only WR PC changes `PC` among the commands. -/
theorem pcChangesOnlyByWrPcOrReset : Obligations.PcChangesOnlyByWrPcOrReset :=
  fun _ _ => step_change_of_word_field RegisterFile.PC .wrPC exec_PC_changed

/-- Settles O37, by field isolation: only WR SP changes `SP` among the commands. -/
theorem spChangesOnlyByWrSpOrReset : Obligations.SpChangesOnlyByWrSpOrReset :=
  fun _ _ => step_change_of_word_field RegisterFile.SP .wrSP exec_SP_changed

/-- Settles O38, by field isolation: only WR F and WR AF change `F` among the commands. -/
theorem flagsChangeOnlyByWrFWrAfOrReset : Obligations.FlagsChangeOnlyByWrFWrAfOrReset := by
  intro s t h hne
  obtain ⟨p, rest, hin, hreset | ⟨hrst, c, i, hc, hd, he⟩⟩ := step_change_cases RegisterFile.F h hne
  · exact ⟨p, rest, hin, .inl hreset⟩
  · refine ⟨p, rest, hin, .inr ⟨hrst, c, hc, ?_⟩⟩
    obtain rfl | ⟨v, rfl, hv⟩ := exec_F_changed he hne
    · exact .inl ⟨_, hd, rfl⟩
    · exact .inr ⟨v, hd, by rw [hv, raw_fromByte, lo_eq_ofNat]⟩

/-- Settles O28: the register file after reset is the parameter itself. -/
theorem resetStateHoldsTheParameter : Obligations.ResetStateHoldsTheParameter :=
  ⟨fun R => by simp, resetParameter, rfl⟩

end Sys2Proof.Machine
end

section
/-! SUPPORT. Noninterference of the hidden nibble (rules R24, R25): masking commutes with every access to the register
file, so flag-equal commands on flag-equal fields answer alike, and so does every step and every run. -/

namespace Sys2Proof.Machine

/-! Masked values and register files. -/

@[simp] theorem toByte_maskFV (x : FV) : (maskFV x).toByte = x.toByte := toByte_fromByte_toByte x

theorem maskFV_eq_iff {x y : FV} : maskFV x = maskFV y ↔ x.toByte = y.toByte :=
  ⟨fun h => by simpa using congrArg FV.toByte h, congrArg FV.fromByte⟩

@[simp] theorem maskFV_maskFV (x : FV) : maskFV (maskFV x) = maskFV x := maskFV_eq_iff.mpr (toByte_maskFV x)

@[simp] theorem maskRegs_F (r : RegisterFile) : (maskRegs r).F = maskFV r.F := rfl

@[simp] theorem maskRegs_get8 (r : RegisterFile) (q : Reg8) : (maskRegs r).get8 q = r.get8 q := by cases q <;> rfl

@[simp] theorem maskRegs_get16 (r : RegisterFile) (p : Reg16) : (maskRegs r).get16 p = r.get16 p := by
  cases p with
  | AF => simp [maskRegs]
  | BC | DE | HL | PC | SP => rfl

theorem maskRegs_set8 (r : RegisterFile) (q : Reg8) (v : Byte) :
    maskRegs (r.set8 q v) = (maskRegs r).set8 q v := by cases q <;> rfl

theorem maskRegs_setF (r : RegisterFile) (x : FV) : maskRegs (r.setF x) = (maskRegs r).setF (maskFV x) := rfl

theorem maskRegs_set16 (r : RegisterFile) (p : Reg16) (v : Word) :
    maskRegs (r.set16 p v) = maskRegs ((maskRegs r).set16 p v) := by
  cases p <;> simp [maskRegs]

/-! Stores of equal bytes, equal words or flag-equal Flags values keep register files flag-equal. -/

section
variable {r t : RegisterFile} (h : regsFlagEq r t)
include h

theorem regsFlagEq_set8 (q : Reg8) (v : Byte) : regsFlagEq (r.set8 q v) (t.set8 q v) := by
  rw [regsFlagEq, maskRegs_set8, maskRegs_set8, h]

theorem regsFlagEq_setF {x y : FV} (hxy : x.toByte = y.toByte) : regsFlagEq (r.setF x) (t.setF y) := by
  rw [regsFlagEq, maskRegs_setF, maskRegs_setF, h, maskFV_eq_iff.mpr hxy]

theorem regsFlagEq_set16 (p : Reg16) (v : Word) : regsFlagEq (r.set16 p v) (t.set16 p v) := by
  rw [regsFlagEq, maskRegs_set16, h, ← maskRegs_set16]

end

/-! What the shared operations answer on flag-equal register files. -/

/-- Both outcomes are next states, with flag-equal fields and flag-equal results: what rule R25 asks of a command. -/
def answerAlike (o p : Host.Outcome State Fault Refusal) : Prop :=
  ∃ s t, o = .next s ∧ p = .next t ∧ regsFlagEq s.regs t.regs ∧ resultFlagEq s.result t.result

theorem answerAlike.symm {o p : Host.Outcome State Fault Refusal} : answerAlike o p → answerAlike p o
  | ⟨s, t, ho, hp, hregs, hres⟩ => ⟨t, s, hp, ho, Eq.symm hregs, Eq.symm hres⟩

theorem answerAlike.trans {o p q : Host.Outcome State Fault Refusal} : answerAlike o p → answerAlike p q → answerAlike o q
  | ⟨s, t, ho, hp, hregs, hres⟩, ⟨t', u, hp', hq, hregs', hres'⟩ => by
    obtain rfl : t = t' := Host.Outcome.next.inj (hp.symm.trans hp')
    exact ⟨s, u, ho, hq, Eq.trans hregs hregs', Eq.trans hres hres'⟩

section
variable {s t : State} (h : regsFlagEq s.regs t.regs)
include h

theorem read8_alike (q : Reg8) : answerAlike (read8 q s) (read8 q t) := by
  have hq : s.regs.get8 q = t.regs.get8 q := by simpa using congrArg (RegisterFile.get8 · q) h
  exact ⟨_, _, rfl, rfl, h, by simp [hq]⟩

theorem read16_alike (p : Reg16) : answerAlike (read16 p s) (read16 p t) := by
  have hp : s.regs.get16 p = t.regs.get16 p := by simpa using congrArg (RegisterFile.get16 · p) h
  exact ⟨_, _, rfl, rfl, h, by simp [hp]⟩

theorem giveFV_alike {x y : FV} (hxy : x.toByte = y.toByte) : answerAlike (giveFV x s) (giveFV y t) :=
  ⟨_, _, rfl, rfl, h, congrArg Result.fv (maskFV_eq_iff.mpr hxy)⟩

theorem execToB_alike {x y : FV} (hxy : x.toByte = y.toByte) : answerAlike (execToB x s) (execToB y t) :=
  ⟨_, _, rfl, rfl, h, congrArg Result.byte hxy⟩

theorem write8_alike (q : Reg8) (v : Byte) : answerAlike (write8 q v s) (write8 q v t) :=
  ⟨_, _, rfl, rfl, regsFlagEq_set8 h q v, rfl⟩

theorem write16_alike (p : Reg16) (v : Word) : answerAlike (write16 p v s) (write16 p v t) :=
  ⟨_, _, rfl, rfl, regsFlagEq_set16 h p v, rfl⟩

theorem execWrF_alike {x y : FV} (hxy : x.toByte = y.toByte) : answerAlike (execWrF x s) (execWrF y t) :=
  ⟨_, _, rfl, rfl, regsFlagEq_setF h hxy, rfl⟩

theorem exec_maskInstr_alike (i : Instr) : answerAlike (exec i s) (exec (maskInstr i) t) := by
  cases i with
  | rdA | rdB | rdC | rdD | rdE | rdH | rdL => exact read8_alike h _
  | rdF => exact giveFV_alike h (maskFV_eq_iff.mp (congrArg RegisterFile.F h))
  | wrA v | wrB v | wrC v | wrD v | wrE v | wrH v | wrL v => exact write8_alike h _ v
  | wrF x => exact execWrF_alike h (toByte_maskFV x).symm
  | rdAF | rdBC | rdDE | rdHL | rdPC | rdSP => exact read16_alike h _
  | wrAF v | wrBC v | wrDE v | wrHL v | wrPC v | wrSP v => exact write16_alike h _ v
  | toB x => exact execToB_alike h (toByte_maskFV x).symm
  | fAnd x y => exact giveFV_alike h (by simp [toByte_inter])
  | fOr x y => exact giveFV_alike h (by simp [toByte_union])
  | fXor x y => exact giveFV_alike h (by simp [toByte_symmDiff])
  | fNot x => exact giveFV_alike h (by simp [toByte_compl])
  | fromB | fEmpty | fCarry | fHalf | fSub | fZero => exact giveFV_alike h rfl

/-- Flag-equal commands on flag-equal fields answer alike: both answer as their common masked command does. -/
theorem exec_alike {i j : Instr} (hij : instrFlagEq i j) : answerAlike (exec i s) (exec j t) := by
  have hi : answerAlike (exec i s) (exec (maskInstr i) t) := exec_maskInstr_alike h i
  have hj : answerAlike (exec j t) (exec (maskInstr j) t) := exec_maskInstr_alike rfl j
  exact hi.trans (hij ▸ hj.symm)

end

/-- Settles O39: (a) and (b) by the exported byte, (c) by masking the command. -/
theorem hiddenNibbleIsUnobservable : Obligations.HiddenNibbleIsUnobservable := by
  refine ⟨fun x y h => ?_, fun x y z w hxy hzw => ?_, fun i j s t hij h => exec_alike h hij⟩
  · have hbyte := flagEq_iff.mp h
    exact ⟨hbyte, render_eq_of_has (toByte_eq_iff_has.mp hbyte)⟩
  · simp only [flagEq_iff] at hxy hzw ⊢
    simp only [toByte_inter, toByte_union, toByte_symmDiff, toByte_compl, hxy, hzw, and_self]

/-! Commands of the port. -/

theorem maskCommand_of_reserved {c : Command} (h : decode c = none) : maskCommand c = ⟨c.cmd, 0, 0⟩ := by
  simp [maskCommand, h]

theorem decode_maskCommand (c : Command) : decode (maskCommand c) = (decode c).map maskInstr := by
  cases h : decode c with
  | none => rw [maskCommand_of_reserved h]; exact decode_none_lanes h 0 0
  | some i => simp [maskCommand, h, decode_encode]

/-- Commands with the same mask decode to flag-equal instructions, or are one and the same reserved word. -/
theorem decode_cases_of_maskCommand_eq {c d : Command} (h : maskCommand c = maskCommand d) :
    (∃ i j, decode c = some i ∧ decode d = some j ∧ instrFlagEq i j) ∨
    (decode c = none ∧ decode d = none ∧ c.cmd = d.cmd) := by
  have hdec : (decode c).map maskInstr = (decode d).map maskInstr := by
    rw [← decode_maskCommand, ← decode_maskCommand, h]
  cases hc : decode c with
  | none =>
    have hd : decode d = none := by simpa [hc, eq_comm] using hdec
    rw [maskCommand_of_reserved hc, maskCommand_of_reserved hd] at h
    exact .inr ⟨rfl, hd, (Command.mk.inj h).1⟩
  | some i =>
    obtain ⟨j, hd, hij⟩ : ∃ j, decode d = some j ∧ maskInstr j = maskInstr i := by
      simpa [hc, eq_comm] using hdec
    exact .inl ⟨i, j, rfl, hd, hij.symm⟩

/-! Steps and runs. -/

theorem stateFlagEq_iff {s t : State} : stateFlagEq s t ↔
    regsFlagEq s.regs t.regs ∧ regsFlagEq s.RESET t.RESET ∧ s.inputs.map maskInput = t.inputs.map maskInput ∧
      resultFlagEq s.result t.result := by simp [stateFlagEq, maskState]

/-- Commands that answer alike from flag-equal machines lead to flag-equal machines: they leave the rest of the port. -/
theorem exec_outcomeFlagEq {i j : Instr} {s t : State} (hij : instrFlagEq i j) (h : stateFlagEq s t) :
    outcomeFlagEq (exec i s) (exec j t) := by
  obtain ⟨hregs, hRESET, hin, -⟩ := stateFlagEq_iff.mp h
  obtain ⟨s', t', hs, ht, hregs', hres'⟩ := exec_alike hregs hij
  obtain ⟨hsR, hsI⟩ := exec_frame hs
  obtain ⟨htR, htI⟩ := exec_frame ht
  rw [hs, ht]
  exact stateFlagEq_iff.mpr ⟨hregs', by rwa [hsR, htR], by rwa [hsI, htI], hres'⟩

theorem perform_outcomeFlagEq {c d : Command} {s t : State} (hcd : maskCommand c = maskCommand d) (h : stateFlagEq s t) :
    outcomeFlagEq (perform c s) (perform d t) := by
  obtain ⟨i, j, hc, hd, hij⟩ | ⟨hc, hd, hcmd⟩ := decode_cases_of_maskCommand_eq hcd
  · rw [perform_of_decode hc, perform_of_decode hd]
    exact exec_outcomeFlagEq hij h
  · rw [perform_of_reserved hc, perform_of_reserved hd, hcmd]
    rfl

theorem idle_flagEq {s t : State} (h : stateFlagEq s t) : stateFlagEq s.idle t.idle := by
  obtain ⟨hregs, hRESET, hin, -⟩ := stateFlagEq_iff.mp h
  exact stateFlagEq_iff.mpr ⟨hregs, hRESET, hin, rfl⟩

theorem applyReset_flagEq {s t : State} (h : stateFlagEq s t) : stateFlagEq s.applyReset t.applyReset := by
  obtain ⟨-, hRESET, hin, -⟩ := stateFlagEq_iff.mp h
  exact stateFlagEq_iff.mpr ⟨hRESET, hRESET, hin, rfl⟩

theorem acceptInput_outcomeFlagEq {p q : PortIn} {s t : State} (hpq : maskInput p = maskInput q) (h : stateFlagEq s t) :
    outcomeFlagEq (acceptInput p s) (acceptInput q t) := by
  obtain ⟨rst, c⟩ := p
  obtain ⟨rst', d⟩ := q
  obtain ⟨rfl, hcd⟩ : rst = rst' ∧ c.map maskCommand = d.map maskCommand := by simpa [maskInput] using hpq
  match rst, c, d with
  | true, _, _ => exact applyReset_flagEq h
  | false, none, none => exact idle_flagEq h
  | false, some c, some d => exact perform_outcomeFlagEq (Option.some.inj hcd) h
  | false, none, some _ => cases hcd
  | false, some _, none => cases hcd

theorem step_outcomeFlagEq {s t : State} (h : stateFlagEq s t) : outcomeFlagEq (step s) (step t) := by
  obtain ⟨hregs, hRESET, hin, hres⟩ := stateFlagEq_iff.mp h
  match hs : s.inputs, ht : t.inputs with
  | [], [] =>
    rw [step_nil hs, step_nil ht]
    exact idle_flagEq h
  | p :: ps, q :: qs =>
    obtain ⟨hpq, hrest⟩ : maskInput p = maskInput q ∧ ps.map maskInput = qs.map maskInput := by
      simpa [hs, ht] using hin
    rw [step_cons hs, step_cons ht]
    exact acceptInput_outcomeFlagEq hpq (stateFlagEq_iff.mpr ⟨hregs, hRESET, hrest, hres⟩)
  | [], _ :: _ => simp [hs, ht] at hin
  | _ :: _, [] => simp [hs, ht] at hin

/-- Two outcomes that cannot be told apart are flag-equal next states or the same refusal: there is no fault. -/
theorem outcomeFlagEq_cases {o p : Host.Outcome State Fault Refusal} (h : outcomeFlagEq o p) :
    (∃ s t, o = .next s ∧ p = .next t ∧ stateFlagEq s t) ∨ (∃ r, o = .refused r ∧ p = .refused r) := by
  match o, p with
  | .next s, .next t => exact .inl ⟨s, t, rfl, rfl, h⟩
  | .refused r, .refused r' =>
    obtain rfl : r = r' := h
    exact .inr ⟨r, rfl, rfl⟩
  | .fault f, _ | _, .fault f => cases f
  | .next _, .refused _ | .refused _, .next _ => exact h.elim

theorem run_outcomeFlagEq (k : Nat) {s t : State} (h : stateFlagEq s t) :
    outcomeFlagEq (Sys2Proof.core.run k s) (Sys2Proof.core.run k t) := by
  induction k generalizing s t with
  | zero => exact h
  | succ k ih =>
    obtain ⟨s', t', hs, ht, h'⟩ | ⟨r, hs, ht⟩ := outcomeFlagEq_cases (step_outcomeFlagEq h)
    · rw [run_succ_of_next hs, run_succ_of_next ht]
      exact ih h'
    · rw [run_succ_of_refused hs, run_succ_of_refused ht]
      rfl

/-- Settles O40: a step keeps the relation, so by induction on their number do k of them. -/
theorem runsOfFlagEqualMachinesStayFlagEqual : Obligations.RunsOfFlagEqualMachinesStayFlagEqual :=
  fun k _ _ h => ⟨step_outcomeFlagEq h, run_outcomeFlagEq k h⟩

end Sys2Proof.Machine
end

section
/-! SUPPORT. Commands one after the other on the port: a step runs the command presented and takes its input, and what a
command does is determined by the ten stored fields, so neither the coming inputs nor the last result matters (rules R10,
R41, R43, R145). -/

namespace Sys2Proof.Machine

/-! Updates of the state and of the register file, one after the other: the last one counts. -/

@[simp] theorem withInputs_withInputs (s : State) (ps qs : List PortIn) :
    (s.withInputs ps).withInputs qs = s.withInputs qs := rfl
@[simp] theorem withInputs_inputs_self (s : State) : s.withInputs s.inputs = s := rfl
@[simp] theorem store_store (s : State) (r r' : RegisterFile) : (s.store r).store r' = s.store r' := rfl

@[simp] theorem setF_setF (r : RegisterFile) (x y : FV) : (r.setF x).setF y = r.setF y := rfl
@[simp] theorem set8_set8_same (r : RegisterFile) (q : Reg8) (v w : Byte) :
    (r.set8 q v).set8 q w = r.set8 q w := by cases q <;> rfl
@[simp] theorem set16_set16_same (r : RegisterFile) (p : Reg16) (v w : Word) :
    (r.set16 p v).set16 p w = r.set16 p w := by cases p <;> rfl

/-! The WR commands by the object they name. -/

theorem exec_writeCommand (q : Reg8) (v : Byte) (s : State) :
    exec (writeCommand q v) s = .next (s.store (s.regs.set8 q v)) := by cases q <;> rfl

theorem exec_wrF (x : FV) (s : State) : exec (.wrF x) s = .next (s.store (s.regs.setF x)) := rfl

theorem exec_writeCommand16 (p : Reg16) (v : Word) (s : State) :
    exec (writeCommand16 p v) s = .next (s.store (s.regs.set16 p v)) := by cases p <;> rfl

/-! What a command does depends on the ten stored fields alone. -/

theorem exec_exists_next (i : Instr) (s : State) : ∃ t, exec i s = .next t := by
  obtain ⟨r, h⟩ | ⟨q, v, -, h⟩ | ⟨x, -, h⟩ | ⟨p, v, -, h⟩ := exec_cases i s <;> exact ⟨_, h⟩

/-- From a state with the same ten fields a command leaves the same fields and gives the same result. -/
theorem exec_of_regs_eq {i : Instr} {s t u : State} (hregs : u.regs = s.regs) (h : exec i s = .next t) :
    exec i u = .next ((u.store t.regs).answer t.result) := by
  obtain ⟨regs, RESET, inputs, result⟩ := s
  subst hregs
  cases i <;> (cases h; rfl)

/-- The inputs still to come pass through a command unread. -/
theorem exec_withInputs {i : Instr} {s t : State} (h : exec i s = .next t) (ps : List PortIn) :
    exec i (s.withInputs ps) = .next (t.withInputs ps) := by
  obtain ⟨hRESET, -⟩ := exec_frame h
  rw [exec_of_regs_eq (withInputs_regs s ps) h]
  simp [State.store, State.answer, State.withInputs, hRESET]

/-- Settles O24: a command that stores nothing finds the same fields again; a second store of the same value into the
same object changes nothing. -/
theorem everyCommandIsIdempotent : Obligations.EveryCommandIsIdempotent := by
  intro i s t h
  obtain ⟨r, rfl⟩ | ⟨q, v, rfl, rfl⟩ | ⟨x, rfl, rfl⟩ | ⟨p, v, rfl, rfl⟩ := exec_next_cases h
  · exact exec_of_regs_eq (answer_regs s r) h
  · rw [exec_writeCommand, store_regs, store_store, set8_set8_same]
  · rw [exec_wrF, store_regs, store_store, setF_setF]
  · rw [exec_writeCommand16, store_regs, store_store, set16_set16_same]

/-! Steps. -/

theorem step_of_command {s : State} {c : Command} {rest : List PortIn} {i : Instr}
    (hin : s.inputs = ⟨false, some c⟩ :: rest) (hd : decode c = some i) : step s = exec i (s.withInputs rest) := by
  rw [step_cons hin, acceptInput_command, perform_of_decode hd]

/-- Settles O30: the command presented next is the one performed, and `withFetchWord` presents one. -/
theorem stepRunsTheDecodedCommand : Obligations.StepRunsTheDecodedCommand := by
  refine fun s => ⟨fun c rest i hin hd => step_of_command hin hd, fun n w i hd => ?_⟩
  have hin : (s.withFetchWord n w).inputs = ⟨false, some (Command.ofBits n w)⟩ :: s.inputs := rfl
  rw [step_of_command hin hd, State.withFetchWord, withInputs_withInputs, withInputs_inputs_self]

/-- Settles O45, by what a step can do: idle, reset and every command leave `RESET` and the inputs not yet taken. -/
theorem stepTakesOneInputAndKeepsReset : Obligations.StepTakesOneInputAndKeepsReset := by
  intro s t h
  obtain ⟨hin, rfl⟩ | ⟨c, rest, hin, rfl⟩ | ⟨rest, hin, rfl⟩ | ⟨c, rest, i, hin, -, he⟩ := step_next_cases h
  · simp [hin]
  · simp [hin]
  · simp [hin]
  · simpa [hin] using exec_frame he

theorem run_one (s : State) : Sys2Proof.core.run 1 s = step s := by
  cases h : step s with
  | next t => exact run_succ_of_next h 0
  | fault f => cases f
  | refused r => exact run_succ_of_refused h 0

/-- Settles O46: the first command hands its fields and the second input on to the second step. -/
theorem readsSeeTheMostRecentWrite : Obligations.ReadsSeeTheMostRecentWrite := by
  intro s c d rest i j hin hc hd
  obtain ⟨t, ht⟩ := exec_exists_next i (s.withInputs (⟨false, some d⟩ :: rest))
  obtain ⟨-, htin⟩ := exec_frame ht
  refine ⟨t.withInputs rest, exec_withInputs ht rest, ?_⟩
  rw [run_succ_of_next ((step_of_command hin hc).trans ht) 1, run_one, step_of_command htin hd]

end Sys2Proof.Machine
end

section
/-! SUPPORT. The decoder against the encoder and the opcode map: which words are defined, what an instruction's encoding
keeps of a command, and that a command reads its used operand bits alone (rules R46 to R49, R51, R53). -/

namespace Sys2Proof

open Machine

/-! Which words are defined. -/

/-- A word is defined exactly when it stands in the opcode map, whatever its operands: the lanes play no part, so the
256 words decide it. -/
theorem decode_isSome_iff_mem_opcodeMap (c : Command) :
    (decode c).isSome = true ↔ c.cmd ∈ opcodeMap.map OpcodeRow.word := by
  have words : ∀ k : Cmd, (decode ⟨k, 0, 0⟩).isSome = true ↔ k ∈ opcodeMap.map OpcodeRow.word := by decide
  exact decode_isSome_lanes c.cmd c.a 0 c.b 0 ▸ words c.cmd

/-- The decoder answers for exactly the words that rule R53's own list does not reserve. -/
theorem decode_isSome_eq_not_reserved (c : Command) : (decode c).isSome = !reserved c.cmd := by
  have words : ∀ k : Cmd, (decode ⟨k, 0, 0⟩).isSome = !reserved k := by decide
  exact (decode_isSome_lanes c.cmd c.a 0 c.b 0).trans (words c.cmd)

theorem reserved_of_decode_none {c : Command} (h : decode c = none) : reserved c.cmd = true := by
  simpa [h] using decode_isSome_eq_not_reserved c

theorem not_reserved_of_decode {c : Command} {i : Instr} (h : decode c = some i) : reserved c.cmd = false := by
  simpa [h] using decode_isSome_eq_not_reserved c

theorem decode_none_of_reserved {k : Cmd} (h : reserved k = true) (a : Word) (b : Byte) : decode ⟨k, a, b⟩ = none := by
  simpa [h] using decode_isSome_eq_not_reserved ⟨k, a, b⟩

/-- Settles O32: decoding undoes encoding, so an encoding's word is one that the decoder accepts. -/
theorem decodeOfEncodeIsTheInstruction : Obligations.DecodeOfEncodeIsTheInstruction := by
  intro i
  have hdec : decode (encode i) = some i := decode_encode i
  refine ⟨hdec, ?_, (decode_isSome_iff_mem_opcodeMap _).mp (by simp [hdec])⟩
  simp [Command.wf, not_reserved_of_decode hdec]

/-- Settles O34: the lanes play no part in whether a word is defined; the rest is counting the 256 words. -/
theorem definedWordsAreTheOpcodeMap : Obligations.DefinedWordsAreTheOpcodeMap := by
  refine fun c s => ⟨decode_isSome_iff_mem_opcodeMap c, ?_, fun h => ?_, rfl, by decide, rfl, rfl⟩
  · simp [decode_isSome_eq_not_reserved]
  · exact transact_of_reserved (decode_none_of_reserved h c.a c.b) s

/-! What encoding keeps of a command, format by format. -/

theorem sel_eq_of_toNat {sel : BitVec 3} {n : Nat} (h : sel.toNat = n) : sel = BitVec.ofNat 3 n := by simp [← h]

theorem encode_of_decodeR8 {w : Bool} {sel : BitVec 3} {a : Word} (b : Byte) {i : Instr} (h : decodeR8 w sel a = some i) :
    encode i = ⟨wordR8 w sel, a &&& usedA i, b &&& usedB i⟩ := by
  unfold decodeR8 at h
  split at h
  case h_17 => cases h
  all_goals
    next hsel =>
      obtain rfl := sel_eq_of_toNat hsel
      cases h
      simp [encode, usedA, usedB, sel8, sel8F, toLane_laneByte, toLane_laneFV]

theorem encode_of_decodeR16 {w : Bool} {sel : BitVec 3} {a : Word} (b : Byte) {i : Instr}
    (h : decodeR16 w sel a = some i) : encode i = ⟨wordR16 w sel, a &&& usedA i, b &&& usedB i⟩ := by
  have hall : a &&& 0xFFFF#16 = a := BitVec.and_allOnes
  unfold decodeR16 at h
  split at h
  case h_13 => cases h
  all_goals
    next hsel =>
      obtain rfl := sel_eq_of_toNat hsel
      cases h
      simp [encode, usedA, usedB, sel16, hall]

theorem encode_of_decodeFU {g : Bool} {fn : BitVec 3} {a : Word} {b : Byte} {i : Instr}
    (h : decodeFU g fn a b = some i) : encode i = ⟨wordFU g fn, a &&& usedA i, b &&& usedB i⟩ := by
  have hall : b &&& 0xFF#8 = b := BitVec.and_allOnes
  unfold decodeFU at h
  split at h
  case h_12 => cases h
  all_goals
    next hfn =>
      obtain rfl := sel_eq_of_toNat hfn
      cases h
      simp [encode, usedA, usedB, toLane_laneByte, toLane_laneFV, laneFVb, hall]

/-- Settles O33, format by format: a byte or FV operand puts back the low byte of its lane, a word the whole lane. -/
theorem encodeOfDecodeIsTheCommand : Obligations.EncodeOfDecodeIsTheCommand := by
  rintro ⟨k, a, b⟩ i h
  obtain ⟨w, sel, rfl, hi⟩ | ⟨w, sel, rfl, hi⟩ | ⟨g, fn, rfl, hi⟩ := decode_cases h
  · exact encode_of_decodeR8 b hi
  · exact encode_of_decodeR16 b hi
  · exact encode_of_decodeFU hi

/-! Unused operand bits. -/

/-- Which operand bits an instruction uses can be read off its command word alone. -/
theorem decode_word_used (i : Instr) :
    (decode ⟨(encode i).cmd, 0, 0⟩).map (fun j => (usedA j, usedB j)) = some (usedA i, usedB i) := by
  cases i <;> (simp only [encode]; rfl)

theorem used_eq_of_cmd_eq {i j : Instr} (h : (encode i).cmd = (encode j).cmd) : usedA i = usedA j ∧ usedB i = usedB j := by
  have hused := decode_word_used i
  rw [h, decode_word_used j] at hused
  simpa [eq_comm] using hused

/-- Lanes that agree on the bits an instruction uses make the same instruction: it has one encoding. -/
theorem decode_of_used_lanes_eq {k : Cmd} {a a' : Word} {b b' : Byte} {i : Instr} (h : decode ⟨k, a, b⟩ = some i)
    (ha : a' &&& usedA i = a &&& usedA i) (hb : b' &&& usedB i = b &&& usedB i) : decode ⟨k, a', b'⟩ = some i := by
  obtain ⟨j, hj⟩ : ∃ j, decode ⟨k, a', b'⟩ = some j := by
    simpa [h, Option.isSome_iff_exists] using decode_isSome_lanes k a' a b' b
  have hei : encode i = ⟨k, a &&& usedA i, b &&& usedB i⟩ := encodeOfDecodeIsTheCommand _ _ h
  have hej : encode j = ⟨k, a' &&& usedA j, b' &&& usedB j⟩ := encodeOfDecodeIsTheCommand _ _ hj
  obtain ⟨hA, hB⟩ : usedA j = usedA i ∧ usedB j = usedB i := used_eq_of_cmd_eq (by rw [hei, hej])
  have hij : encode j = encode i := by rw [hej, hei, hA, hB, ha, hb]
  rw [hj, ← decode_encode j, hij, decode_encode]

/-- Settles O35: the command decodes to the same instruction, so the same meaning is performed. -/
theorem unusedOperandBitsAreIgnored : Obligations.UnusedOperandBitsAreIgnored := by
  intro c i a' b' s h ha hb
  rw [perform_of_decode (decode_of_used_lanes_eq h ha hb), perform_of_decode h]

/-! Words written out. -/

/-- Settles O31: a defined word is that of its format's fields; the four others are reserved. -/
theorem writtenWordsDecode : Obligations.WrittenWordsDecode := by
  intro a b
  have none_of (k : Cmd) (h : reserved k = true) : decode ⟨k, a, b⟩ = none := decode_none_of_reserved h a b
  refine ⟨decode_wordR8 false 7 a b, ?_, decode_wordR16 false 5 a b, decode_wordR16 true 3 a b, ?_,
    decode_wordFU true 4 a b, none_of _ rfl, none_of _ rfl, none_of _ rfl, none_of _ rfl⟩
  · rw [← laneByte_eq_ofNat]
    exact decode_wordR8 true 6 a b
  · rw [← laneFV_eq_ofNat]
    exact decode_wordFU false 2 a b

end Sys2Proof
end

section
/-! SUPPORT. How a result is presented on the port's outputs (rules R49, R58, R125). -/

namespace Sys2Proof.Machine

/-- No meaning of a command answers `illegal` (rule R126). -/
theorem exec_resultIll {i : Instr} {s t : State} (h : exec i s = .next t) : resultIll t.result = false := by
  cases i <;> (cases h; rfl)

/-- The output `ill` is 1 exactly for a reserved word (rules R58, R125). -/
theorem resultIll_transact (c : Command) (s : State) : resultIll (transact c s).result = reserved c.cmd := by
  cases hd : decode c with
  | none => simp [transact_of_reserved hd, reserved_of_decode_none hd, resultIll]
  | some i =>
    obtain ⟨t, ht⟩ := exec_exists_next i s
    rw [transact_of_decode hd ht, exec_resultIll ht, not_reserved_of_decode hd]

/-- Settles O50: zero extension keeps the number of a byte; `ill` is that of `transact`. -/
theorem resultsArePresentedZeroExtended : Obligations.ResultsArePresentedZeroExtended := by
  intro v w x c s
  have zeroExtended : ∀ y : Byte, (y.setWidth 16).toNat = y.toNat :=
    fun y => BitVec.toNat_setWidth_of_le (by decide)
  exact ⟨zeroExtended v, rfl, zeroExtended x.raw, rfl, rfl, rfl, rfl, rfl, rfl, rfl, resultIll_transact c s⟩

end Sys2Proof.Machine
end

section
/-! SUPPORT. The engine's lines: what a line of each pseudo-instruction does, the expansions run line by line, and that a
line is issued only with operands of the kinds its command wants (rules R49, R50, R56, R57). -/

namespace Sys2Proof.Machine

/-! The typing of lines. -/

theorem kinds_of_issueLine {l : AsmLine} {e e' : EngineState} (h : issueLine l e = some e') :
    ∃ vs, operandValues e.temps l.operands = some vs ∧ vs.map Value.kind = wordKinds l.cmd := by
  simp only [issueLine] at h
  split at h
  · cases h
  · next vs hv =>
    split at h
    · next hk => exact ⟨vs, hv, hk⟩
    · cases h

/-- A literal of a kind that the command does not want is not issued, whatever the line binds (rule R50). -/
theorem issueLine_lit_of_kind_ne {c : Cmd} (u : Value) (hk : [u.kind] ≠ wordKinds c) (d : Option Nat)
    (e : EngineState) :
    issueLine ⟨d, c, [.lit u]⟩ e = none := by
  cases h : issueLine ⟨d, c, [.lit u]⟩ e with
  | none => rfl
  | some e' =>
    obtain ⟨vs, hv, hvs⟩ := kinds_of_issueLine h
    obtain rfl : vs = [u] := (Option.some.inj hv).symm
    exact absurd hvs hk

/-- Settles O49: issuing a line checks its operands' kinds; then the transaction is bound as `bindResult` says. -/
theorem flagsValuesGoOnlyWhereFlagsAreWanted : Obligations.FlagsValuesGoOnlyWhereFlagsAreWanted := by
  intro e
  refine ⟨fun l e' h => ?_, fun l vs t hv hk ht => ?_, fun x v d => ?_⟩
  · obtain ⟨vs, hv, hk⟩ := kinds_of_issueLine h
    exact ⟨vs, operandValues_eq_some_iff.mp hv, hk⟩
  · rw [issueLine_of_kinds (operandValues_eq_some_iff.mpr hv) hk ht]
    refine ⟨fun hd => ?_, fun n v hd hr => ?_, fun n hd hr => ?_⟩
    · simp [hd]
    · simp [hd, hr, bindResult]
    · simp [hd, hr, bindResult]
  · have fv_refused (c : Cmd) (hk : [Kind.fv] ≠ wordKinds c) : issueLine ⟨d, c, [.lit (.fv x)]⟩ e = none :=
      issueLine_lit_of_kind_ne (.fv x) hk d e
    have byte_refused (c : Cmd) (hk : [Kind.byte] ≠ wordKinds c) : issueLine ⟨d, c, [.lit (.byte v)]⟩ e = none :=
      issueLine_lit_of_kind_ne (.byte v) hk d e
    exact ⟨fv_refused _ (by decide), fv_refused _ (by decide), byte_refused _ (by decide), byte_refused _ (by decide),
      byte_refused _ (by decide)⟩

/-! What the lines of the expansions do. -/

/-- The result that carries a value. -/
def Value.result : Value → Result
  | .byte v => .byte v
  | .word v => .word v
  | .fv x => .fv x

@[simp] theorem resultValue_result (v : Value) : resultValue v.result = some v := by cases v <;> rfl

/-- The engine after a command has given the value `v`, bound to the temporary `t_n`. -/
def EngineState.bind (e : EngineState) (n : Nat) (v : Value) : EngineState :=
  ⟨e.block.answer v.result, (n, v) :: e.temps⟩

/-- The engine after a command has stored the register file `r`. -/
def EngineState.store (e : EngineState) (r : RegisterFile) : EngineState := ⟨e.block.store r, e.temps⟩

/-- The word of an instruction wants the kinds of operands that the instruction has. -/
theorem wordKinds_encode (i : Instr) : wordKinds (encode i).cmd = operandKinds i := by
  cases i <;> (simp only [encode]; rfl)

section
variable (i : Instr) {e : EngineState} {os : List Operand} {vs : List Value}
  (hv : operandValues e.temps os = some vs) (hk : vs.map Value.kind = operandKinds i)
  (hl : lanes vs = some ((encode i).a, (encode i).b))
include hv hk hl

/-- A line whose command gives a value binds it. -/
theorem issueLine_gives {n : Nat} {v : Value} (he : exec i e.block = .next (e.block.answer v.result)) :
    issueLine ⟨some n, (encode i).cmd, os⟩ e = some (e.bind n v) :=
  issueLine_of_exec hv (hk.trans (wordKinds_encode i).symm) hl (decode_encode i) he (by simp [bindResult])

/-- A line whose command stores binds nothing. -/
theorem issueLine_stores {r : RegisterFile} (he : exec i e.block = .next (e.block.store r)) :
    issueLine ⟨none, (encode i).cmd, os⟩ e = some (e.store r) :=
  issueLine_of_exec hv (hk.trans (wordKinds_encode i).symm) hl (decode_encode i) he (bindResult_none _ _)

end

section
variable {e : EngineState} {o p : Operand} {b : Byte} {x y : FV} (n : Nat)

theorem operandValues_one {u : Value} (ho : o.value e.temps = some u) : operandValues e.temps [o] = some [u] := by
  simp [operandValues, ho]

theorem operandValues_two {u v : Value} (ho : o.value e.temps = some u) (hp : p.value e.temps = some v) :
    operandValues e.temps [o, p] = some [u, v] := by
  simp [operandValues, ho, hp]

theorem issueLine_lineRdF (e : EngineState) : issueLine (lineRdF n) e = some (e.bind n (.fv e.block.regs.F)) :=
  issueLine_gives .rdF rfl rfl rfl rfl

theorem issueLine_lineWrF (ho : o.value e.temps = some (.fv x)) :
    issueLine (lineWrF o) e = some (e.store (e.block.regs.setF x)) :=
  issueLine_stores (.wrF x) (operandValues_one ho) rfl rfl rfl

theorem issueLine_fromB (ho : o.value e.temps = some (.byte b)) :
    issueLine (lineFn n 0 [o]) e = some (e.bind n (.fv (FV.fromByte b))) :=
  issueLine_gives (.fromB b) (operandValues_one ho) rfl rfl rfl

theorem issueLine_toB (ho : o.value e.temps = some (.fv x)) :
    issueLine (lineFn n 1 [o]) e = some (e.bind n (.byte x.toByte)) :=
  issueLine_gives (.toB x) (operandValues_one ho) rfl rfl rfl

theorem issueLine_fNot (ho : o.value e.temps = some (.fv x)) :
    issueLine (lineFn n 5 [o]) e = some (e.bind n (.fv x.compl)) :=
  issueLine_gives (.fNot x) (operandValues_one ho) rfl rfl rfl

section
variable (ho : o.value e.temps = some (.fv x)) (hp : p.value e.temps = some (.fv y))
include ho hp

theorem issueLine_fAnd : issueLine (lineFn n 2 [o, p]) e = some (e.bind n (.fv (x.inter y))) :=
  issueLine_gives (.fAnd x y) (operandValues_two ho hp) rfl rfl rfl

theorem issueLine_fOr : issueLine (lineFn n 3 [o, p]) e = some (e.bind n (.fv (x.union y))) :=
  issueLine_gives (.fOr x y) (operandValues_two ho hp) rfl rfl rfl

theorem issueLine_fXor : issueLine (lineFn n 4 [o, p]) e = some (e.bind n (.fv (x.symmDiff y))) :=
  issueLine_gives (.fXor x y) (operandValues_two ho hp) rfl rfl rfl

end

/-- The function codes of the four singleton constants (rules R67 to R70). -/
def singleFn : FlagName → BitVec 3
  | .carry => 1
  | .halfCarry => 2
  | .subtraction => 3
  | .zero => 4

theorem issueLine_single (k : FlagName) (e : EngineState) :
    issueLine (lineConst n (singleFn k)) e = some (e.bind n (.fv (FV.single k))) := by
  cases k with
  | carry => exact issueLine_gives .fCarry rfl rfl rfl rfl
  | halfCarry => exact issueLine_gives .fHalf rfl rfl rfl rfl
  | subtraction => exact issueLine_gives .fSub rfl rfl rfl rfl
  | zero => exact issueLine_gives .fZero rfl rfl rfl rfl

end

/-! The expansions, line by line. -/

theorem runLines_cons_of {l : AsmLine} {ls : List AsmLine} {e e' : EngineState} {r : Option EngineState}
    (hl : issueLine l e = some e') (hls : runLines ls e' = r) : runLines (l :: ls) e = r := (runLines_cons hl).trans hls

theorem runLines_setf (b : Byte) (e : EngineState) :
    runLines (setf b) e = some ((e.bind 0 (.fv (FV.fromByte b))).store (e.block.regs.setF (FV.fromByte b))) :=
  runLines_cons_of (issueLine_fromB 0 rfl) <| runLines_cons_of (issueLine_lineWrF rfl) <| runLines_nil _

theorem runLines_getf (e : EngineState) :
    runLines getf e = some ((e.bind 0 (.fv e.block.regs.F)).bind 1 (.byte e.block.regs.F.toByte)) :=
  runLines_cons_of (issueLine_lineRdF 0 e) <| runLines_cons_of (issueLine_toB 1 rfl) <| runLines_nil _

/-- Read `F` into `t0`, leave `g` of it in `t1`, write `F` back: the shape of ANDF, ORF, XORF and NOTF. -/
theorem runLines_updateF {l : AsmLine} (g : FV → FV)
    (hl : ∀ {e : EngineState} {x : FV}, (Operand.temp 0).value e.temps = some (.fv x) →
      issueLine l e = some (e.bind 1 (.fv (g x))))
    (e : EngineState) :
    ∃ e', runLines [lineRdF 0, l, lineWrF (.temp 1)] e = some e' ∧
      e'.block = e.block.store (e.block.regs.setF (g e.block.regs.F)) :=
  ⟨_, runLines_cons_of (issueLine_lineRdF 0 e) <| runLines_cons_of (hl rfl) <|
    runLines_cons_of (issueLine_lineWrF rfl) <| runLines_nil _, rfl⟩

theorem runLines_clrf (y : FV) (e : EngineState) :
    ∃ e', runLines (clrf y) e = some e' ∧
      e'.block = e.block.store (e.block.regs.setF (e.block.regs.F.inter y.compl)) :=
  ⟨_, runLines_cons_of (issueLine_fNot 0 rfl) <| runLines_cons_of (issueLine_lineRdF 1 _) <|
    runLines_cons_of (issueLine_fAnd 2 rfl rfl) <| runLines_cons_of (issueLine_lineWrF rfl) <| runLines_nil _, rfl⟩

theorem runLines_fall (e : EngineState) :
    ∃ e', runLines fall e = some e' ∧
      e'.block = e.block.answer (.fv ⟨0xF0⟩) ∧ e'.temps.lookup 6 = some (.fv ⟨0xF0⟩) :=
  ⟨_, runLines_cons_of (issueLine_single 0 .zero e) <| runLines_cons_of (issueLine_single 1 .subtraction _) <|
    runLines_cons_of (issueLine_single 2 .halfCarry _) <| runLines_cons_of (issueLine_single 3 .carry _) <|
    runLines_cons_of (issueLine_fOr 4 rfl rfl) <| runLines_cons_of (issueLine_fOr 5 rfl rfl) <|
    runLines_cons_of (issueLine_fOr 6 rfl rfl) <| runLines_nil _, rfl, rfl⟩

/-- `t0 = RD s ; WR d, t0`, the two objects given by their commands: the shape of MOV8 and MOV16. -/
theorem runLines_move {rd wr : Instr} {c c' : Cmd} (v : Value) {r : RegisterFile} {e : EngineState}
    (hrd : encode rd = ⟨c, 0, 0⟩) (hrdk : operandKinds rd = [])
    (hread : exec rd e.block = .next (e.block.answer v.result))
    (hwr : encode wr = ⟨c', v.onA, 0⟩) (hwrk : operandKinds wr = [v.kind])
    (hwrite : exec wr (e.bind 0 v).block = .next ((e.bind 0 v).block.store r)) :
    ∃ e', runLines [⟨some 0, c, []⟩, ⟨none, c', [.temp 0]⟩] e = some e' ∧ e'.block = e.block.store r := by
  have hnone : operandValues e.temps [] = some [] := rfl
  have hline : issueLine ⟨some 0, c, []⟩ e = some (e.bind 0 v) := by
    simpa [hrd] using issueLine_gives rd hnone hrdk.symm (by simp [lanes, hrd]) hread
  have hline' : issueLine ⟨none, c', [.temp 0]⟩ (e.bind 0 v) = some ((e.bind 0 v).store r) := by
    simpa [hwr] using issueLine_stores wr (operandValues_one rfl) hwrk.symm (by simp [lanes, hwr]) hwrite
  exact ⟨_, runLines_cons_of hline <| runLines_cons_of hline' <| runLines_nil _, rfl⟩

/-! The RD and WR commands by the object they name. -/

theorem encode_readCommand (q : Reg8) : encode (readCommand q) = ⟨wordR8 false (sel8 q), 0, 0⟩ := by cases q <;> rfl

theorem encode_writeCommand (q : Reg8) (v : Byte) :
    encode (writeCommand q v) = ⟨wordR8 true (sel8 q), toLane v, 0⟩ := by cases q <;> rfl

theorem operandKinds_readCommand (q : Reg8) : operandKinds (readCommand q) = [] := by cases q <;> rfl

theorem operandKinds_writeCommand (q : Reg8) (v : Byte) : operandKinds (writeCommand q v) = [.byte] := by
  cases q <;> rfl

theorem exec_readCommand (q : Reg8) (s : State) :
    exec (readCommand q) s = .next (s.answer (.byte (s.regs.get8 q))) := by cases q <;> rfl

/-- The RD command of a 16-bit view or field (rules R105 to R110). -/
def readCommand16 : Reg16 → Instr
  | .AF => .rdAF
  | .BC => .rdBC
  | .DE => .rdDE
  | .HL => .rdHL
  | .PC => .rdPC
  | .SP => .rdSP

theorem encode_readCommand16 (p : Reg16) : encode (readCommand16 p) = ⟨wordR16 false (sel16 p), 0, 0⟩ := by
  cases p <;> rfl

theorem encode_writeCommand16 (p : Reg16) (v : Word) :
    encode (writeCommand16 p v) = ⟨wordR16 true (sel16 p), v, 0⟩ := by cases p <;> rfl

theorem operandKinds_readCommand16 (p : Reg16) : operandKinds (readCommand16 p) = [] := by cases p <;> rfl

theorem operandKinds_writeCommand16 (p : Reg16) (v : Word) : operandKinds (writeCommand16 p v) = [.word] := by
  cases p <;> rfl

theorem exec_readCommand16 (p : Reg16) (s : State) :
    exec (readCommand16 p) s = .next (s.answer (.word (s.regs.get16 p))) := by cases p <;> rfl

theorem runLines_mov8 (d s : Reg8) (e : EngineState) :
    ∃ e', runLines (mov8 d s) e = some e' ∧
      e'.block = e.block.store (e.block.regs.set8 d (e.block.regs.get8 s)) :=
  runLines_move (.byte (e.block.regs.get8 s)) (encode_readCommand s) (operandKinds_readCommand s)
    (exec_readCommand s _) (encode_writeCommand d _) (operandKinds_writeCommand d _) (exec_writeCommand d _ _)

theorem mov16_eq_none_iff {p q : Reg16} : mov16 p q = none ↔ p = .AF ∨ q = .AF := by
  simp [mov16, or_iff_not_imp_left]

theorem runLines_mov16 {p q : Reg16} (hp : p ≠ .AF) (hq : q ≠ .AF) (e : EngineState) :
    ∃ ls e', mov16 p q = some ls ∧ runLines ls e = some e' ∧
      e'.block = e.block.store (e.block.regs.set16 p (e.block.regs.get16 q)) := by
  obtain ⟨e', hls, hblock⟩ := runLines_move (.word (e.block.regs.get16 q)) (encode_readCommand16 q)
    (operandKinds_readCommand16 q) (exec_readCommand16 q _) (encode_writeCommand16 p _)
    (operandKinds_writeCommand16 p _) (exec_writeCommand16 p _ _)
  exact ⟨_, e', by simp [mov16, hp, hq], hls, hblock⟩

/-- Settles O48, expansion by expansion: what each line gives or stores, threaded through the temporaries. -/
theorem pseudoInstructionEffects : Obligations.PseudoInstructionEffects := by
  intro e b y k d s p q
  have hsetf := runLines_setf b e
  have hgetf := runLines_getf e
  have hy (e : EngineState) : (Operand.lit (.fv y)).value e.temps = some (.fv y) := rfl
  have handf := runLines_updateF (FV.inter · y) (fun h => issueLine_fAnd 1 h (hy _)) e
  have horf := runLines_updateF (FV.union · y) (fun h => issueLine_fOr 1 h (hy _)) e
  have hxorf := runLines_updateF (FV.symmDiff · y) (fun h => issueLine_fXor 1 h (hy _)) e
  have hnotf := runLines_updateF FV.compl (fun h => issueLine_fNot 1 h) e
  exact ⟨⟨_, hsetf, rfl⟩, ⟨_, hgetf, rfl, rfl⟩, handf, horf, hxorf, hnotf, runLines_clrf y e, ⟨_, hgetf, rfl, rfl⟩,
    runLines_fall e, runLines_mov8 d s e, mov16_eq_none_iff.symm, fun hp hq => runLines_mov16 hp hq e⟩

end Sys2Proof.Machine
end

section
/-! SUPPORT. The flags_unit: what its eleven commands answer, the set algebra flag by flag, and the rendering as the list
of the flags set (rules R60 to R79). -/

namespace Sys2Proof.Machine

/-! What the commands answer. -/

/-- The result of a flags_unit command, from its operands alone; `none` for the other commands (rule R75). -/
def flagsUnitResult : Instr → Option Result
  | .fromB v => some (.fv (.fromByte v))
  | .toB x => some (.byte x.toByte)
  | .fAnd x y => some (.fv (x.inter y))
  | .fOr x y => some (.fv (x.union y))
  | .fXor x y => some (.fv (x.symmDiff y))
  | .fNot x => some (.fv x.compl)
  | .fEmpty => some (.fv .empty)
  | .fCarry => some (.fv (.single .carry))
  | .fHalf => some (.fv (.single .halfCarry))
  | .fSub => some (.fv (.single .subtraction))
  | .fZero => some (.fv (.single .zero))
  | _ => none

/-- A flags_unit command gives its result from every state and changes nothing else (rule R75). -/
theorem exec_of_flagsUnitResult {i : Instr} {r : Result} (h : flagsUnitResult i = some r) (s : State) :
    exec i s = .next (s.answer r) := by
  cases i with
  | fromB | toB | fAnd | fOr | fXor | fNot => cases h; rfl
  | fEmpty | fCarry | fHalf | fSub | fZero => cases h; rfl
  | _ => cases h

section
variable {x y z : FV} {v : Byte}

theorem exec_toB (h : x.toByte = v) (s : State) : exec (.toB x) s = .next (s.answer (.byte v)) :=
  h ▸ exec_of_flagsUnitResult rfl s

theorem exec_fAnd (h : x.inter y = z) (s : State) : exec (.fAnd x y) s = .next (s.answer (.fv z)) :=
  h ▸ exec_of_flagsUnitResult rfl s

theorem exec_fOr (h : x.union y = z) (s : State) : exec (.fOr x y) s = .next (s.answer (.fv z)) :=
  h ▸ exec_of_flagsUnitResult rfl s

theorem exec_fXor (h : x.symmDiff y = z) (s : State) : exec (.fXor x y) s = .next (s.answer (.fv z)) :=
  h ▸ exec_of_flagsUnitResult rfl s

theorem exec_fNot (h : x.compl = z) (s : State) : exec (.fNot x) s = .next (s.answer (.fv z)) :=
  h ▸ exec_of_flagsUnitResult rfl s

end

/-! The set algebra, flag by flag (rules R62 to R70, R73, R77). -/

theorem bit_lt (k : FlagName) : k.bit < 8 := by cases k <;> decide

theorem bit_inj {k l : FlagName} : k.bit = l.bit ↔ k = l := by cases k <;> cases l <;> decide

@[simp] theorem has_inter (x y : FV) (k : FlagName) : (x.inter y).has k = (x.has k && y.has k) := by
  simp [has_eq_raw, FV.inter]

@[simp] theorem has_union (x y : FV) (k : FlagName) : (x.union y).has k = (x.has k || y.has k) := by
  simp [has_eq_raw, FV.union]

@[simp] theorem has_symmDiff (x y : FV) (k : FlagName) : (x.symmDiff y).has k = (x.has k != y.has k) := by
  simp [has_eq_raw, FV.symmDiff]

@[simp] theorem has_compl (x : FV) (k : FlagName) : x.compl.has k = !x.has k := by
  simp [has_eq_raw, FV.compl, bit_lt k]

theorem toByte_empty : FV.empty.toByte = 0x00#8 := rfl

@[simp] theorem has_empty (k : FlagName) : FV.empty.has k = false := by simp [has_eq_raw, FV.empty]

/-- The one raw bit of a flag's constant is at the flag's position (rules R67 to R70). -/
theorem single_getLsbD (k : FlagName) (n : Nat) : (FV.single k).raw.getLsbD n = decide (n = k.bit) := by
  simp [FV.single, BitVec.getLsbD_twoPow, bit_lt k, eq_comm]

@[simp] theorem has_single (k l : FlagName) : (FV.single k).has l = decide (l = k) := by
  rw [has_eq_raw, single_getLsbD, decide_eq_decide]
  exact bit_inj

theorem toByte_eq_zero_iff {x : FV} : x.toByte = 0x00#8 ↔ ∀ k, x.has k = false := by
  rw [← toByte_empty, toByte_eq_iff_has]
  simp

/-- Intersection with a flag's constant tests the flag. -/
theorem inter_single (x : FV) (k : FlagName) : x.inter (.single k) = if x.has k then .single k else .empty := by
  simp only [FV.inter, FV.single, BitVec.and_twoPow, has_eq_raw]
  split <;> rfl

theorem inter_single_toByte_ne_zero {x : FV} {k : FlagName} : (x.inter (.single k)).toByte ≠ 0x00#8 ↔ x.has k = true := by
  simp [toByte_eq_zero_iff]

/-- A set contains another exactly when it has each of its flags (rule R77). -/
theorem inter_toByte_eq_iff {x t : FV} : (x.inter t).toByte = t.toByte ↔ ∀ k, t.has k = true → x.has k = true := by
  simp [toByte_eq_iff_has]

/-! The complement (rules R65, R72). -/

/-- The complement is the symmetric difference with all 8 raw bits. -/
theorem compl_eq_symmDiff (x : FV) : x.compl = x.symmDiff ⟨0xFF#8⟩ := congrArg FV.mk BitVec.xor_allOnes.symm

@[simp] theorem compl_compl (x : FV) : x.compl.compl = x := congrArg FV.mk BitVec.not_not

theorem compl_inter (x y : FV) : (x.inter y).compl = x.compl.union y.compl := congrArg FV.mk BitVec.not_and

theorem compl_union (x y : FV) : (x.union y).compl = x.compl.inter y.compl := congrArg FV.mk BitVec.not_or

theorem toByte_compl_eq_xor (x : FV) : x.compl.toByte = x.toByte ^^^ 0xF0#8 := by
  rw [compl_eq_symmDiff, toByte_symmDiff]
  rfl

theorem toByte_compl_toNat (x : FV) : x.compl.toByte.toNat = 0xF0 - x.toByte.toNat := by
  have hraw : x.compl.raw.toNat = 255 - x.raw.toNat := BitVec.toNat_not
  have hlt := x.raw.isLt
  rw [toByte_toNat, toByte_toNat, hraw]
  omega

/-! The statements about the commands. -/

/-- Settles O9: each command by its one equation, its flags by the set algebra. -/
theorem flagAlgebraCommands : Obligations.FlagAlgebraCommands := by
  intro s a b x y k
  rw [← laneFV_eq_ofNat]
  have hcompl : x.compl = ⟨x.raw ^^^ 0xFF#8⟩ := compl_eq_symmDiff x
  exact ⟨decode_wordFU false 2 a b, decode_wordFU false 3 a b, decode_wordFU false 4 a b, decode_wordFU false 5 a b,
    exec_fAnd rfl s, exec_fOr rfl s, exec_fXor rfl s, exec_fNot hcompl s,
    has_inter x y k, has_union x y k, has_symmDiff x y k, hcompl ▸ has_compl x k⟩

/-- Settles O11: the exported byte of a result is the operation on the exported bytes. -/
theorem exportIsAHomomorphism : Obligations.ExportIsAHomomorphism := fun s x y =>
  ⟨x.toByte, y.toByte, x.inter y, x.union y, x.symmDiff y, exec_toB rfl s, exec_toB rfl s,
    exec_fAnd rfl s, exec_toB (toByte_inter x y) s, exec_fOr rfl s, exec_toB (toByte_union x y) s,
    exec_fXor rfl s, exec_toB (toByte_symmDiff x y) s⟩

/-- Settles O12, by the laws of the complement. -/
theorem complementLaws : Obligations.ComplementLaws := fun s x y =>
  ⟨x.compl, y.compl, exec_fNot rfl s, exec_fNot rfl s, exec_fNot (compl_compl x) s,
    exec_toB (toByte_compl_eq_xor x) s, toByte_compl_toNat x,
    x.inter y, x.union y, exec_fAnd rfl s, exec_fOr rfl s,
    (exec_fNot (compl_inter x y) s).trans (exec_fOr rfl s).symm,
    (exec_fNot (compl_union x y) s).trans (exec_fAnd rfl s).symm⟩

/-- Settles O15: the queries read the flags one by one. -/
theorem flagQueries : Obligations.FlagQueries := fun s x t k =>
  ⟨x.toByte, x.inter (.single k), x.inter t, (x.inter (.single k)).toByte, (x.inter t).toByte, t.toByte,
    exec_toB rfl s, exec_fAnd rfl s, exec_toB rfl s, exec_fAnd rfl s, exec_toB rfl s, exec_toB rfl s,
    rfl, inter_single_toByte_ne_zero.symm, inter_toByte_eq_iff, toByte_eq_zero_iff⟩

/-- Settles O8: a constructed value keeps its byte, whose low nibble TOB clears. -/
theorem flagConversionCommands : Obligations.FlagConversionCommands := by
  intro s a b v x
  rw [← laneFV_eq_ofNat, ← laneByte_eq_ofNat]
  exact ⟨decode_wordFU false 0 a b, decode_wordFU false 1 a b, exec_of_flagsUnitResult rfl s, exec_toB rfl s,
    exec_toB rfl s⟩

/-- Settles O10: the words of the constants are those of the fields g = 1 and fn = 0 to 4. -/
theorem flagConstantCommands : Obligations.FlagConstantCommands := fun s a b =>
  ⟨⟨decode_wordFU true 0 a b, exec_of_flagsUnitResult rfl s⟩, ⟨decode_wordFU true 1 a b, exec_of_flagsUnitResult rfl s⟩,
    ⟨decode_wordFU true 2 a b, exec_of_flagsUnitResult rfl s⟩, ⟨decode_wordFU true 3 a b, exec_of_flagsUnitResult rfl s⟩,
    ⟨decode_wordFU true 4 a b, exec_of_flagsUnitResult rfl s⟩, by decide, by decide, by decide, by decide, by decide⟩

/-- Settles O13: intersection with a constant tests its flag, and no other constant has it. -/
theorem constantsAreDisjointSingletons : Obligations.ConstantsAreDisjointSingletons := by
  intro s k l x
  have hdisjoint (hne : k ≠ l) : (FV.single k).inter (.single l) = .empty := by simp [inter_single, hne.symm]
  have hempty : FV.empty.inter x = .empty := congrArg FV.mk BitVec.zero_and
  exact ⟨fun hne => exec_fAnd (hdisjoint hne) s, exec_fOr rfl s, fun j => single_getLsbD k j,
    exec_of_flagsUnitResult rfl s, exec_of_flagsUnitResult rfl s, exec_of_flagsUnitResult rfl s,
    exec_of_flagsUnitResult rfl s, exec_fAnd hempty s, exec_of_flagsUnitResult rfl s, rfl⟩

/-- Settles O52: a result from the operands alone. -/
theorem flagsUnitReadsAndWritesNoField : Obligations.FlagsUnitReadsAndWritesNoField := fun _ _ _ =>
  have answers {i : Instr} {r : Result} (h : flagsUnitResult i = some r) :
      ∃ r, ∀ s : State, exec i s = .next { s with result := r } := ⟨r, exec_of_flagsUnitResult h⟩
  ⟨answers rfl, answers rfl, answers rfl, answers rfl, answers rfl, answers rfl, answers rfl, answers rfl, answers rfl,
    answers rfl, answers rfl⟩

/-! The rendering (rule R79). -/

theorem joinTokens_eq_intercalate {ts : List String} (h : ts ≠ []) : joinTokens ts = " | ".intercalate ts := by
  induction ts with
  | nil => exact absurd rfl h
  | cons t ts ih =>
    cases ts with
    | nil => exact String.intercalate_singleton.symm
    | cons u rest => rw [joinTokens, ih (by simp), String.intercalate_cons_cons]

theorem mem_displayOrder (k : FlagName) : k ∈ displayOrder := by cases k <;> decide

theorem tokens_eq_nil_iff {x : FV} : x.tokens = [] ↔ x.toByte = 0x00#8 := by
  simp [FV.tokens, mem_displayOrder, toByte_eq_zero_iff]

theorem map_filter_cons {α β : Type} (f : α → β) (p : α → Bool) (a : α) (l : List α) :
    ((a :: l).filter p).map f = (if p a then [f a] else []) ++ (l.filter p).map f := by
  rw [List.filter_cons]
  split <;> rfl

/-- The tokens, flag by flag in display order. -/
theorem tokens_eq_append (x : FV) : x.tokens =
    (if x.has .zero then ["Z"] else []) ++ (if x.has .subtraction then ["N"] else []) ++
      (if x.has .halfCarry then ["H"] else []) ++ (if x.has .carry then ["C"] else []) := by
  simp [FV.tokens, displayOrder, map_filter_cons, FlagName.token]

/-- Settles O47: the rendering reads the flags alone, and joins the tokens of those that are set. -/
theorem renderListsTheSetFlags : Obligations.RenderListsTheSetFlags := by
  refine ⟨by decide, by decide, by decide, fun x => ⟨?_, ?_⟩⟩
  · exact render_eq_of_has (toByte_eq_iff_has.mp (toByte_fromByte_toByte x).symm)
  · split
    case isTrue hzero => rw [FV.render, tokens_eq_nil_iff.mpr hzero, joinTokens]
    case isFalse hset =>
      rw [FV.render, joinTokens_eq_intercalate (mt tokens_eq_nil_iff.mp hset), tokens_eq_append]
      rfl

end Sys2Proof.Machine
end

section
/-! SUPPORT. The 8-bit fields: their RD and WR commands decoded and performed, and that writes to different fields
commute (rules R85 to R102). -/

namespace Sys2Proof.Machine

/-! Writes of the register file, one after the other. -/

/-- The seven byte fields, `F`, `PC` and `SP` make the register file (rule R10). -/
theorem regs_eq_of_get8 {r t : RegisterFile} (h8 : ∀ q, r.get8 q = t.get8 q) (hF : r.F = t.F) (hPC : r.PC = t.PC)
    (hSP : r.SP = t.SP) : r = t := by
  cases r
  cases t
  rw [RegisterFile.mk.injEq]
  exact ⟨h8 .A, hF, h8 .B, h8 .C, h8 .D, h8 .E, h8 .H, h8 .L, hPC, hSP⟩

/-- Writes to different byte fields commute: at most one of them is the field read back (rule R102). -/
theorem set8_comm {q q' : Reg8} (hne : q ≠ q') (r : RegisterFile) (v w : Byte) :
    (r.set8 q v).set8 q' w = (r.set8 q' w).set8 q v := by
  refine regs_eq_of_get8 (fun p => ?_) (by simp) (by simp) (by simp)
  simp only [set8_get8]
  by_cases hq : p = q
  · simp [hq, hne]
  · simp [hq]

theorem set8_setF (r : RegisterFile) (q : Reg8) (v : Byte) (x : FV) : (r.set8 q v).setF x = (r.setF x).set8 q v :=
  regs_eq_of_get8 (fun p => by simp [set8_get8]) (by simp) (by simp) (by simp)

@[simp] theorem setF_self (r : RegisterFile) : r.setF r.F = r := rfl

/-! The words of the RD and WR commands (rules R46, R49). -/

theorem decode_readCommand (q : Reg8) (a : Word) (b : Byte) :
    decode ⟨wordR8 false (sel8 q), a, b⟩ = some (readCommand q) := by
  rw [decode_wordR8]
  cases q <;> rfl

theorem decode_writeCommand (q : Reg8) (a : Word) (b : Byte) :
    decode ⟨wordR8 true (sel8 q), a, b⟩ = some (writeCommand q (BitVec.ofNat 8 a.toNat)) := by
  rw [decode_wordR8, ← laneByte_eq_ofNat]
  cases q <;> rfl

theorem exec_rdF (s : State) : exec .rdF s = .next (s.answer (.fv s.regs.F)) := rfl

/-! The statements. -/

/-- Settles O20: a read of the field just stored. -/
theorem readAfterWriteOfAField : Obligations.ReadAfterWriteOfAField := by
  intro s r v x
  refine ⟨⟨_, exec_writeCommand r v s, ?_⟩, ⟨_, exec_wrF x s, exec_rdF _⟩⟩
  rw [exec_readCommand, store_regs, set8_get8_same]
  rfl

/-- Settles O21: stores follow one another as the writes of the register file do. -/
theorem lastWriteWinsAndWritesCommute : Obligations.LastWriteWinsAndWritesCommute := by
  intro s r r' v w x y
  have hlast8 : exec (writeCommand r w) (s.store (s.regs.set8 r v)) = exec (writeCommand r w) s := by
    simp only [exec_writeCommand, store_regs, store_store, set8_set8_same]
  have hcomm8 (hne : r ≠ r') :
      exec (writeCommand r v) (s.store (s.regs.set8 r' w)) = .next (s.store ((s.regs.set8 r v).set8 r' w)) := by
    rw [exec_writeCommand, store_regs, store_store, set8_comm hne]
  have hcommF :
      exec (writeCommand r v) (s.store (s.regs.setF x)) = .next (s.store ((s.regs.set8 r v).setF x)) := by
    rw [exec_writeCommand, store_regs, store_store, set8_setF]
  exact ⟨⟨_, exec_writeCommand r v s, hlast8⟩,
    fun hne => ⟨_, _, _, exec_writeCommand r v s, exec_writeCommand r' w _, exec_writeCommand r' w s, hcomm8 hne⟩,
    ⟨_, exec_wrF x s, exec_wrF y _⟩,
    ⟨_, _, _, exec_writeCommand r v s, exec_wrF x _, exec_wrF x s, hcommF⟩⟩

/-- Settles O1, field by field. -/
theorem readByteFieldsAnswerTheirField : Obligations.ReadByteFieldsAnswerTheirField := by
  intro s a b
  have reads (q : Reg8) : decode ⟨wordR8 false (sel8 q), a, b⟩ = some (readCommand q) ∧
      exec (readCommand q) s = .next { s with result := .byte (s.regs.get8 q) } :=
    ⟨decode_readCommand q a b, exec_readCommand q s⟩
  exact ⟨reads .A, reads .B, reads .C, reads .D, reads .E, reads .H, reads .L⟩

/-- Settles O2: the value read is the value held, and storing it again changes nothing. -/
theorem readFlagsAnswersAllRawBits : Obligations.ReadFlagsAnswersAllRawBits := by
  intro s a b
  have writesBack : exec (.wrF s.regs.F) s = .next (s.store s.regs) := by rw [exec_wrF, setF_self]
  exact ⟨decode_wordR8 false sel8F a b, exec_rdF s, writesBack⟩

/-- Settles O3, field by field. -/
theorem writeByteFieldsStoreTheOperand : Obligations.WriteByteFieldsStoreTheOperand := by
  intro s a b v
  have writes (q : Reg8) :
      decode ⟨wordR8 true (sel8 q), a, b⟩ = some (writeCommand q (BitVec.ofNat 8 a.toNat)) ∧
      exec (writeCommand q v) s = .next { s with regs := s.regs.set8 q v, result := .none } :=
    ⟨decode_writeCommand q a b, exec_writeCommand q v s⟩
  exact ⟨writes .A, writes .B, writes .C, writes .D, writes .E, writes .H, writes .L⟩

/-- Settles O4: the raw byte is stored whole; RD F gives it back and RD AF exports it. -/
theorem writeFlagsStoresAllRawBits : Obligations.WriteFlagsStoresAllRawBits := by
  intro s a b x
  rw [← laneFV_eq_ofNat]
  exact ⟨decode_wordR8 true sel8F a b, _, exec_wrF x s, rfl, exec_readCommand16 .AF _, exec_rdF _⟩

end Sys2Proof.Machine
end

section
/-! SUPPORT. The pair views, `PC` and `SP`: their RD and WR commands decoded and performed, and that a pair access is two
field accesses, AF's low byte exported when read and stored raw when written (rules R18, R38, R105 to R120). -/

namespace Sys2Proof.Machine

/-! The halves of a word as numbers, and the flags byte as the low half (rule R36). -/

theorem hi_eq_ofNat (w : Word) : hi w = BitVec.ofNat 8 (w.toNat / 256) := by
  rw [← hi_toNat, BitVec.ofNat_toNat, BitVec.setWidth_eq]

theorem lo_eq_ofNat_mod (w : Word) : lo w = BitVec.ofNat 8 (w.toNat % 256) := by
  rw [← lo_toNat, BitVec.ofNat_toNat, BitVec.setWidth_eq]

/-- The flags stored with a word are its bits 7..4 (rule R111). -/
theorem has_fromByte_lo (w : Word) (k : FlagName) : (FV.fromByte (lo w)).has k = w.getLsbD k.bit := by
  rw [has_eq_raw, raw_fromByte, lo, BitVec.getLsbD_extractLsb']
  simp [bit_lt k]

theorem lo_low_nibble (w : Word) : (lo w).extractLsb' 0 4 = w.extractLsb' 0 4 := by
  rw [lo, BitVec.extractLsb'_extractLsb'_of_le (by decide)]

theorem toByte_low_nibble (x : FV) : x.toByte.extractLsb' 0 4 = 0#4 := by
  rw [FV.toByte, BitVec.extractLsb'_and]
  exact BitVec.and_zero

/-- Exporting the low half of a word clears bits 3..0 of the word (rule R118). -/
theorem pair_hi_toByte_lo (w : Word) : pair (hi w) (FV.fromByte (lo w)).toByte = w &&& 0xFFF0#16 := by
  have hhi : hi w &&& 0xFF#8 = hi w := BitVec.and_allOnes
  calc pair (hi w) (FV.fromByte (lo w)).toByte
      = pair (hi w &&& 0xFF#8) (lo w &&& 0xF0#8) := by rw [hhi]; rfl
    _ = pair (hi w) (lo w) &&& pair 0xFF#8 0xF0#8 := BitVec.and_append.symm
    _ = w &&& 0xFFF0#16 := by rw [pair_hi_lo]; rfl

/-! The two byte fields of a pair view; AF stands apart, since its low half is a Flags value (rule R18). -/

/-- The pair view `p` is made of the byte fields `x`, high, and `y`, low. -/
inductive Halves : Reg16 → Reg8 → Reg8 → Prop where
  | BC : Halves .BC .B .C
  | DE : Halves .DE .D .E
  | HL : Halves .HL .H .L

section
variable {p : Reg16} {x y : Reg8} (h : Halves p x y)
include h

theorem Halves.ne : x ≠ y := by cases h <;> decide

theorem Halves.get16 (r : RegisterFile) : r.get16 p = pair (r.get8 x) (r.get8 y) := by cases h <;> rfl

theorem Halves.set16 (r : RegisterFile) (v : Word) : r.set16 p v = (r.set8 x (hi v)).set8 y (lo v) := by
  cases h <;> rfl

theorem Halves.set16_low_first (r : RegisterFile) (v : Word) :
    r.set16 p v = (r.set8 y (lo v)).set8 x (hi v) := by rw [h.set16, set8_comm h.ne]

theorem Halves.get8_high_set16 (r : RegisterFile) (v : Word) : (r.set16 p v).get8 x = hi v := by
  rw [h.set16_low_first, set8_get8_same]

theorem Halves.get8_low_set16 (r : RegisterFile) (v : Word) : (r.set16 p v).get8 y = lo v := by
  rw [h.set16, set8_get8_same]

theorem Halves.get16_set8_high (r : RegisterFile) (a : Byte) : (r.set8 x a).get16 p = pair a (r.get8 y) := by
  rw [h.get16, set8_get8_same, set8_get8, if_neg h.ne.symm]

theorem Halves.get16_set8_low (r : RegisterFile) (b : Byte) : (r.set8 y b).get16 p = pair (r.get8 x) b := by
  rw [h.get16, set8_get8_same, set8_get8, if_neg h.ne]

end

/-! A 16-bit object read after it has been written. -/

theorem get16_set16_same {p : Reg16} (hp : p ≠ .AF) (r : RegisterFile) (v : Word) : (r.set16 p v).get16 p = v := by
  cases p with
  | AF => exact absurd rfl hp
  | BC | DE | HL => exact pair_hi_lo v
  | PC | SP => rfl

theorem get16_AF_set16_AF (r : RegisterFile) (v : Word) : (r.set16 .AF v).get16 .AF = v &&& 0xFFF0#16 :=
  pair_hi_toByte_lo v

/-- Writing back the AF view keeps `A` and clears the hidden nibble of `F` (rule R118). -/
theorem set16_AF_get16_AF (r : RegisterFile) : r.set16 .AF (r.get16 .AF) = maskRegs r := by
  rw [set16_AF, get16_AF, hi_pair, lo_pair]
  rfl

/-! The words of the RD and WR commands (rules R47, R49). -/

theorem decode_readCommand16 (p : Reg16) (a : Word) (b : Byte) :
    decode ⟨wordR16 false (sel16 p), a, b⟩ = some (readCommand16 p) := by
  rw [decode_wordR16]
  cases p <;> rfl

theorem decode_writeCommand16 (p : Reg16) (v : Word) (b : Byte) :
    decode ⟨wordR16 true (sel16 p), v, b⟩ = some (writeCommand16 p v) := by
  rw [decode_wordR16]
  cases p <;> rfl

/-- The word of an RD command performed: the object as result, and no field changed. -/
theorem decode_exec_readCommand16 (p : Reg16) (a : Word) (b : Byte) (s : State) :
    decode ⟨wordR16 false (sel16 p), a, b⟩ = some (readCommand16 p) ∧
    exec (readCommand16 p) s = .next (s.answer (.word (s.regs.get16 p))) :=
  ⟨decode_readCommand16 p a b, exec_readCommand16 p s⟩

/-- The word of a WR command performed: lane `a` stored whole, lane `b` unread. -/
theorem decode_exec_writeCommand16 (p : Reg16) (v : Word) (b : Byte) (s : State) :
    decode ⟨wordR16 true (sel16 p), v, b⟩ = some (writeCommand16 p v) ∧
    exec (writeCommand16 p v) s = .next (s.store (s.regs.set16 p v)) :=
  ⟨decode_writeCommand16 p v b, exec_writeCommand16 p v s⟩

/-! Commands one after the other. -/

theorem exec_writeCommand_store (q : Reg8) (v : Byte) (r : RegisterFile) (s : State) :
    exec (writeCommand q v) (s.store r) = .next (s.store (r.set8 q v)) := exec_writeCommand q v _

section
variable {p : Reg16} {x y : Reg8} (h : Halves p x y) (s : State)
include h

/-- A pair write is the writes of its two halves, in either order (rule R120). -/
theorem Halves.write_eq_half_writes (v : Word) :
    ∃ t u w, exec (writeCommand16 p v) s = .next w ∧ w.regs = s.regs.set16 p v ∧
      exec (writeCommand x (hi v)) s = .next t ∧ exec (writeCommand y (lo v)) t = .next w ∧
      exec (writeCommand y (lo v)) s = .next u ∧ exec (writeCommand x (hi v)) u = .next w := by
  refine ⟨_, _, _, exec_writeCommand16 p v s, rfl, exec_writeCommand x _ s, ?_, exec_writeCommand y _ s, ?_⟩
  · rw [exec_writeCommand_store, h.set16]
  · rw [exec_writeCommand_store, h.set16_low_first]

theorem Halves.read_halves_of_write (v : Word) :
    ∃ t, exec (writeCommand16 p v) s = .next t ∧
      exec (readCommand x) t = .next (t.answer (.byte (hi v))) ∧
      exec (readCommand y) t = .next (t.answer (.byte (lo v))) := by
  refine ⟨_, exec_writeCommand16 p v s, ?_, ?_⟩
  · rw [exec_readCommand, store_regs, h.get8_high_set16]
  · rw [exec_readCommand, store_regs, h.get8_low_set16]

theorem Halves.read_of_write_high_low (a b : Byte) :
    ∃ t u, exec (writeCommand x a) s = .next t ∧ exec (writeCommand y b) t = .next u ∧
      exec (readCommand16 p) u = .next (u.answer (.word (pair a b))) ∧
      exec (readCommand16 p) t = .next (t.answer (.word (pair a (s.regs.get8 y)))) := by
  refine ⟨_, _, exec_writeCommand x a s, exec_writeCommand_store y b _ s, ?_, ?_⟩
  · rw [exec_readCommand16, store_regs, h.get16_set8_low, set8_get8_same]
  · rw [exec_readCommand16, store_regs, h.get16_set8_high]

theorem Halves.read_of_write_low_high (a b : Byte) :
    ∃ t u, exec (writeCommand y b) s = .next t ∧ exec (writeCommand x a) t = .next u ∧
      exec (readCommand16 p) u = .next (u.answer (.word (pair a b))) := by
  refine ⟨_, _, exec_writeCommand y b s, exec_writeCommand_store x a _ s, ?_⟩
  rw [exec_readCommand16, store_regs, h.get16_set8_high, set8_get8_same]

end

/-! The statements. -/

/-- Settles O5: the word read is the composition of the halves, for AF with the exported byte. -/
theorem readPairsComposeTheHalves : Obligations.ReadPairsComposeTheHalves := by
  intro s a b
  have reads {p : Reg16} {x y : Reg8} (h : Halves p x y) :
      decode ⟨wordR16 false (sel16 p), a, b⟩ = some (readCommand16 p) ∧
      ∃ w, exec (readCommand16 p) s = .next { s with result := .word w } ∧
        w.toNat = (s.regs.get8 x).toNat * 256 + (s.regs.get8 y).toNat :=
    ⟨decode_readCommand16 p a b, _, exec_readCommand16 p s, by rw [h.get16, pair_toNat]⟩
  have haf : (s.regs.get16 .AF).toNat = s.regs.A.toNat * 256 + s.regs.F.raw.toNat / 16 * 16 := by
    rw [get16_AF, pair_toNat, toByte_toNat]
  exact ⟨⟨decode_readCommand16 .AF a b, _, exec_readCommand16 .AF s, haf, by omega⟩, reads .BC, reads .DE, reads .HL⟩

/-- Settles O6, pair by pair; the flags stored are bits 7..4 of the word. -/
theorem writePairsSplitTheWord : Obligations.WritePairsSplitTheWord := by
  intro s v b
  rw [← hi_eq_ofNat, ← lo_eq_ofNat_mod]
  have writes (p : Reg16) := decode_exec_writeCommand16 p v b s
  refine ⟨writes .AF, writes .BC, writes .DE, writes .HL, fun t ht => ?_⟩
  have hF : t.regs.F = FV.fromByte (lo v) := by rw [write16_next.mp ht]; rfl
  rw [hF]
  exact ⟨has_fromByte_lo v .zero, has_fromByte_lo v .subtraction, has_fromByte_lo v .halfCarry,
    has_fromByte_lo v .carry, lo_low_nibble v⟩

/-- Settles O16, object by object. -/
theorem pairRoundTrip : Obligations.PairRoundTrip := by
  intro s v
  have trip {p : Reg16} (hp : p ≠ .AF) : ∃ t, exec (writeCommand16 p v) s = .next t ∧
      exec (readCommand16 p) t = .next { t with result := .word v } := by
    refine ⟨_, exec_writeCommand16 p v s, ?_⟩
    rw [exec_readCommand16, store_regs, get16_set16_same hp]
    rfl
  exact ⟨trip (p := .BC) nofun, trip (p := .DE) nofun, trip (p := .HL) nofun, trip (p := .PC) nofun,
    trip (p := .SP) nofun⟩

/-- Settles O17: the write stores the raw low byte and the read exports it; writing the view back masks `F`. -/
theorem afRoundTripTruncates : Obligations.AfRoundTripTruncates := by
  intro s v
  have hread : exec .rdAF (s.store (s.regs.set16 .AF v)) =
      .next ((s.store (s.regs.set16 .AF v)).answer (.word (v &&& 0xFFF0#16))) := by
    rw [← get16_AF_set16_AF s.regs v]
    exact exec_readCommand16 .AF _
  have hback : exec (.wrAF (s.regs.get16 .AF)) s = .next (s.store (maskRegs s.regs)) := by
    rw [← set16_AF_get16_AF]
    exact exec_writeCommand16 .AF _ s
  exact ⟨⟨_, exec_writeCommand16 .AF v s, lo_eq_ofNat v, hread⟩,
    ⟨_, _, exec_readCommand16 .AF s, hback, rfl, toByte_eq_iff_has.mp (toByte_maskFV s.regs.F),
      toByte_low_nibble s.regs.F⟩⟩

/-- Settles O18, pair by pair; for AF the low half is a Flags value, exported when read. -/
theorem halvesAndPairsAgree : Obligations.HalvesAndPairsAgree := by
  intro s v x y z
  rw [← hi_eq_ofNat, ← lo_eq_ofNat_mod]
  have ofWrite {p : Reg16} {q q' : Reg8} (h : Halves p q q') := h.read_halves_of_write s v
  have highLow {p : Reg16} {q q' : Reg8} (h : Halves p q q') := h.read_of_write_high_low s x y
  have lowHigh {p : Reg16} {q q' : Reg8} (h : Halves p q q') := h.read_of_write_low_high s x y
  exact ⟨ofWrite .BC, highLow .BC, lowHigh .BC, ofWrite .DE, highLow .DE, lowHigh .DE,
    ofWrite .HL, highLow .HL, lowHigh .HL,
    ⟨_, _, exec_writeCommand16 .AF v s, exec_readCommand .A _, exec_rdF _, exec_toB rfl _⟩,
    ⟨_, _, exec_writeCommand .A x s, exec_wrF z _, exec_readCommand16 .AF _⟩,
    ⟨_, _, exec_wrF z s, exec_writeCommand .A x _, exec_readCommand16 .AF _⟩⟩

/-- Settles O19: the stores of the two halves make the pair's, and commute. -/
theorem pairWriteIsTwoFieldWrites : Obligations.PairWriteIsTwoFieldWrites := by
  intro s v
  rw [← hi_eq_ofNat, ← lo_eq_ofNat_mod]
  have splits {p : Reg16} {q q' : Reg8} (h : Halves p q q') := h.write_eq_half_writes s v
  exact ⟨⟨_, _, _, exec_writeCommand16 .AF v s, rfl, exec_writeCommand .A _ s, exec_wrF _ _, exec_wrF _ s,
      exec_writeCommand .A _ _⟩,
    splits .BC, splits .DE, splits .HL,
    ⟨_, exec_writeCommand16 .PC v s, rfl⟩, ⟨_, exec_writeCommand16 .SP v s, rfl⟩⟩

/-- Settles O7, field by field. -/
theorem wordFieldsReadAndWritten : Obligations.WordFieldsReadAndWritten := by
  intro s a v b
  have reads (p : Reg16) := decode_exec_readCommand16 p a b s
  have writes (p : Reg16) := decode_exec_writeCommand16 p v b s
  exact ⟨reads .PC, reads .SP, writes .PC, writes .SP⟩

end Sys2Proof.Machine
end

section
/-! SUPPORT. The exception `IllegalCommand` and what a step can answer at all: a next state that is not illegal, or the
refusal of a reserved word; and that the words still to come decide which (rules R53, R54, R125, R126, R130, R131, R136). -/

namespace Sys2Proof.Machine

/-! Defined and reserved commands. -/

theorem resultIll_eq_false_iff {r : Result} : resultIll r = false ↔ r ≠ .illegal := by cases r <;> simp [resultIll]

/-- A command whose word is not reserved is performed, and its transaction is what it answers (rules R49, R126). -/
theorem perform_eq_next_transact {c : Command} (h : reserved c.cmd = false) (s : State) :
    perform c s = .next (transact c s) := by
  obtain ⟨i, hd⟩ : ∃ i, decode c = some i := by
    simpa [h, Option.isSome_iff_exists] using decode_isSome_eq_not_reserved c
  obtain ⟨t, ht⟩ := exec_exists_next i s
  rw [perform_of_decode hd, transact_of_decode hd ht, ht]

/-- The cause code tells a reserved word from a defined one (rule R125). -/
theorem causeCode_transact (c : Command) (s : State) :
    causeCode (transact c s).result = if reserved c.cmd then 1 else 0 := by rw [causeCode, resultIll_transact]

/-! The last result is not read: nothing of an `IllegalCommand` outlives its step (rules R125, R131). -/

theorem exec_answer (i : Instr) (s : State) (r : Result) : exec i (s.answer r) = exec i s := by
  obtain ⟨t, ht⟩ := exec_exists_next i s
  obtain ⟨hRESET, hin⟩ := exec_frame ht
  rw [exec_of_regs_eq (answer_regs s r) ht, ht]
  simp [State.store, State.answer, ← hRESET, ← hin]

theorem perform_answer (c : Command) (s : State) (r : Result) : perform c (s.answer r) = perform c s := by
  cases hd : decode c with
  | none => rw [perform_of_reserved hd, perform_of_reserved hd]
  | some i => rw [perform_of_decode hd, perform_of_decode hd, exec_answer]

/-! What a step can answer. -/

/-- A reserved word presented without reset is refused (rules R54, R136). -/
theorem step_of_reserved {s : State} {c : Command} {rest : List PortIn} (hin : s.inputs = ⟨false, some c⟩ :: rest)
    (hr : reserved c.cmd = true) : step s = .refused (.illegalCommand c.cmd) := by
  rw [step_cons hin, acceptInput_command, perform_of_reserved (decode_none_of_reserved hr c.a c.b)]

/-- Everything a step can answer: a next state, or the refusal of a reserved word presented without reset. -/
theorem step_cases (s : State) :
    (∃ t, step s = .next t) ∨
    (∃ c rest, s.inputs = ⟨false, some c⟩ :: rest ∧ reserved c.cmd = true ∧ step s = .refused (.illegalCommand c.cmd)) := by
  match hin : s.inputs with
  | [] => exact .inl ⟨_, step_nil hin⟩
  | ⟨true, c⟩ :: rest => exact .inl ⟨_, step_cons hin⟩
  | ⟨false, none⟩ :: rest => exact .inl ⟨_, step_cons hin⟩
  | ⟨false, some c⟩ :: rest =>
    cases hr : reserved c.cmd with
    | true => exact .inr ⟨c, rest, rfl, hr, step_of_reserved hin hr⟩
    | false => exact .inl ⟨_, (step_cons hin).trans (perform_eq_next_transact hr _)⟩

/-- The next state of a step carries no exception (rule R126). -/
theorem step_result_ne_illegal {s t : State} (h : step s = .next t) : t.result ≠ .illegal := by
  obtain ⟨-, rfl⟩ | ⟨c, rest, -, rfl⟩ | ⟨rest, -, rfl⟩ | ⟨c, rest, i, -, -, he⟩ := step_next_cases h
  · simp [State.idle]
  · simp
  · simp [State.idle]
  · exact resultIll_eq_false_iff.mp (exec_resultIll he)

/-! Safety along a run. -/

theorem not_safe_of_reserved {s : State} {c : Command} {rest : List PortIn} (hin : s.inputs = ⟨false, some c⟩ :: rest)
    (hr : reserved c.cmd = true) : s.safe = false := by
  simp [State.safe, hin, PortIn.accepted, Command.wf, hr]

/-- A step that answers a next state took an accepted input, so it keeps the state safe or unsafe as it was. -/
theorem step_safe {s t : State} (h : step s = .next t) : t.safe = s.safe := by
  obtain ⟨-, htin⟩ := stepTakesOneInputAndKeepsReset s t h
  obtain ⟨hin, -⟩ | ⟨c, rest, hin, -⟩ | ⟨rest, hin, -⟩ | ⟨c, rest, i, hin, hd, -⟩ := step_next_cases h
  · simp [State.safe, htin, hin]
  · simp [State.safe, htin, hin, PortIn.accepted]
  · simp [State.safe, htin, hin, PortIn.accepted]
  · simp [State.safe, htin, hin, PortIn.accepted, Command.wf, not_reserved_of_decode hd]

/-- A run that takes all the inputs of an unsafe state meets the reserved word among them and stops there. -/
theorem run_ne_next_of_not_safe (k : Nat) {s : State} (hk : s.inputs.length = k) (hs : s.safe = false) (t : State) :
    Sys2Proof.core.run k s ≠ .next t := by
  induction k generalizing s with
  | zero => simp [State.safe, List.eq_nil_of_length_eq_zero hk] at hs
  | succ k ih =>
    obtain ⟨u, hu⟩ | ⟨c, rest, -, -, hstep⟩ := step_cases s
    · obtain ⟨-, huin⟩ := stepTakesOneInputAndKeepsReset s u hu
      rw [run_succ_of_next hu]
      exact ih (by simp [huin, hk]) ((step_safe hu).trans hs)
    · simp [run_succ_of_refused hstep]

/-! The statements. -/

/-- Settles O41: a safe state's step is not refused, and a step keeps safety in both directions, so an unsafe state's run
reaches its reserved word. -/
theorem safeStatesStepToSafeStates : Obligations.SafeStatesStepToSafeStates := by
  refine ⟨fun s hs => ?_, fun s hs t => run_ne_next_of_not_safe _ rfl hs t⟩
  obtain ⟨t, ht⟩ | ⟨c, rest, hin, hr, -⟩ := step_cases s
  · exact ⟨t, ht, (step_safe ht).trans hs, step_result_ne_illegal ht⟩
  · simp [not_safe_of_reserved hin hr] at hs

/-- Settles O23: a command answers a result or stores, and no meaning answers `illegal`. -/
theorem everyCommandCompletes : Obligations.EveryCommandCompletes := by
  intro i s
  obtain ⟨t, ht⟩ := exec_exists_next i s
  exact ⟨t, ht, resultIll_eq_false_iff.mp (exec_resultIll ht)⟩

/-- Settles O25: a step that is not refused for a reserved word answers a next state; there is no fault. -/
theorem onlyReservedWordsAreRefused : Obligations.OnlyReservedWordsAreRefused := by
  refine fun s => ⟨fun r => ⟨fun h => ?_, ?_⟩, fun f => nomatch f⟩
  · obtain ⟨t, ht⟩ | ⟨c, rest, hin, hr, hstep⟩ := step_cases s
    · cases ht.symm.trans h
    · exact ⟨c, rest, hin, hr, Host.Outcome.refused.inj (h.symm.trans hstep)⟩
  · rintro ⟨c, rest, hin, hr, rfl⟩
    exact step_of_reserved hin hr

/-- Settles O26: the transaction of a reserved word changes the result alone, and no command reads the last result. -/
theorem illegalCommandChangesNothing : Obligations.IllegalCommandChangesNothing := by
  refine fun c s => ⟨fun hr => ?_, fun hr => ?_⟩
  · have hd : decode c = none := decode_none_of_reserved hr c.a c.b
    have htr : transact c s = s.answer .illegal := transact_of_reserved hd s
    refine ⟨htr, by simp [causeCode_transact, hr], by rw [resultIll_transact, hr], perform_of_reserved hd s, fun d => ?_⟩
    rw [htr, perform_answer]
  · exact ⟨perform_eq_next_transact hr s, by simp [causeCode_transact, hr]⟩

end Sys2Proof.Machine
end

section
/-! SUPPORT. Runs that store only canonical flags: a canonical Flags value is one that masking leaves alone, and every
step keeps `F`, `RESET.F` and the inputs still to come canonical (rules R12, R24, R118, R146). -/

namespace Sys2Proof.Machine

/-! Canonical Flags values. -/

/-- Canonical is a zero low nibble (rule R24). -/
theorem canonical_iff_mod {x : FV} : x.canonical = true ↔ x.raw.toNat % 16 = 0 := by
  have hraw : x.canonical = true ↔ x.raw.toNat = x.raw.toNat / 16 * 16 := by
    rw [← toByte_toNat, BitVec.toNat_inj, FV.canonical, beq_iff_eq]
  rw [hraw]
  omega

theorem toByte_of_canonical {x : FV} (h : x.canonical = true) : x.toByte = x.raw :=
  (beq_iff_eq.mp h).symm

/-- The hidden nibble of a canonical `F` is already clear. -/
theorem maskRegs_of_canonical {r : RegisterFile} (h : r.F.canonical = true) : maskRegs r = r := by
  have hF : maskFV r.F = r.F := congrArg FV.mk (toByte_of_canonical h)
  rw [maskRegs, hF]

/-- A word whose bits 3..0 are zero has a canonical low byte. -/
theorem canonical_fromByte_lo {v : Word} (h : v &&& 0x000F#16 = 0#16) : (FV.fromByte (lo v)).canonical = true := by
  have hv : v.toNat % 16 = 0 := by
    simpa [Nat.and_two_pow_sub_one_eq_mod v.toNat 4] using congrArg BitVec.toNat h
  rw [canonical_iff_mod, raw_fromByte, lo_toNat]
  omega

/-! What a command and a step keep. -/

theorem exec_F_canonical {i : Instr} {s t : State} (h : exec i s = .next t) (hF : s.regs.F.canonical = true)
    (hi : storesCanonical i = true) : t.regs.F.canonical = true := by
  by_cases hsame : t.regs.F = s.regs.F
  · rwa [hsame]
  · obtain rfl | ⟨v, rfl, hv⟩ := exec_F_changed h hsame
    · exact hi
    · rw [hv]
      exact canonical_fromByte_lo (beq_iff_eq.mp hi)

theorem inputStoresCanonical_of_decode {rst : Bool} {c : Command} {i : Instr} (h : decode c = some i) :
    inputStoresCanonical ⟨rst, some c⟩ = storesCanonical i := by simp [inputStoresCanonical, h]

theorem canonicalRun_iff {s : State} : s.canonicalRun = true ↔
    s.regs.F.canonical = true ∧ s.RESET.F.canonical = true ∧ ∀ p ∈ s.inputs, inputStoresCanonical p = true := by
  simp [State.canonicalRun, and_assoc]

theorem step_canonicalRun {s t : State} (hs : s.canonicalRun = true) (h : step s = .next t) :
    t.canonicalRun = true := by
  obtain ⟨hF, hR, hin⟩ := canonicalRun_iff.mp hs
  obtain ⟨htR, htin⟩ := stepTakesOneInputAndKeepsReset s t h
  have htF : t.regs.F.canonical = true := by
    obtain ⟨-, rfl⟩ | ⟨c, rest, -, rfl⟩ | ⟨rest, -, rfl⟩ | ⟨c, rest, i, hi, hd, he⟩ := step_next_cases h
    · exact hF
    · exact hR
    · exact hF
    · have hstores : storesCanonical i = true :=
        (inputStoresCanonical_of_decode hd).symm.trans (hin _ (by rw [hi]; exact List.mem_cons_self))
      exact exec_F_canonical he hF hstores
  exact canonicalRun_iff.mpr ⟨htF, htR ▸ hR, fun p hp => hin p (List.mem_of_mem_tail (htin ▸ hp))⟩

/-! The statements. -/

/-- Settles O43: a step changes `F` only to `RESET.F` or to what a coming input stores, all of them canonical; the AF
view of a canonical `F` holds it whole, and writing the view back masks what has nothing to mask. -/
theorem canonicalRunIsKept : Obligations.CanonicalRunIsKept := by
  intro s hs
  obtain ⟨hF, -, -⟩ := canonicalRun_iff.mp hs
  refine ⟨fun t => step_canonicalRun hs, s.regs.get16 .AF, exec_readCommand16 .AF s, ?_, ?_⟩
  · rw [← lo_eq_ofNat, get16_AF, lo_pair, toByte_of_canonical hF]
  · calc exec (.wrAF (s.regs.get16 .AF)) s
        = .next (s.store (s.regs.set16 .AF (s.regs.get16 .AF))) := exec_writeCommand16 .AF _ s
      _ = .next (s.store s.regs) := by rw [set16_AF_get16_AF, maskRegs_of_canonical hF]

/-- Settles O44: right after reset `F` is `RESET.F` and no input is pending. -/
theorem resetWithCanonicalFlagsRunsCanonically : Obligations.ResetWithCanonicalFlagsRunsCanonically := by
  intro R
  simp [State.canonicalRun]

end Sys2Proof.Machine
end

section
/-! SUPPORT. Reset, idle steps and the definition of the whole state by six writes (rules R27, R140 to R144). -/

namespace Sys2Proof.Machine

/-! Idle steps. -/

/-- A step whose input, if there is any, presents nothing: the input is taken and the result is `none` (rule R144). -/
theorem step_of_idle {k : Nat} {s : State} (h : ∀ p ∈ s.inputs.take (k + 1), p = ⟨false, none⟩) :
    step s = .next ((s.withInputs s.inputs.tail).answer .none) := by
  match hin : s.inputs with
  | [] => rw [step_nil hin, List.tail_nil, ← hin, withInputs_inputs_self, idle_eq]
  | p :: rest =>
    obtain rfl : p = ⟨false, none⟩ := h p (by simp [hin])
    rw [step_cons hin, acceptInput_idle, List.tail_cons, idle_eq]

/-- `k + 1` idle steps take their inputs and leave everything else but the result. -/
theorem run_succ_of_idle (k : Nat) {s : State} (h : ∀ p ∈ s.inputs.take (k + 1), p = ⟨false, none⟩) :
    Sys2Proof.core.run (k + 1) s = .next ((s.withInputs (s.inputs.drop (k + 1))).answer .none) := by
  induction k generalizing s with
  | zero =>
    rw [run_one, List.drop_one]
    exact step_of_idle h
  | succ k ih =>
    have hrest : ∀ p ∈ s.inputs.tail.take (k + 1), p = ⟨false, none⟩ := fun p hp =>
      h p (List.mem_of_mem_tail (by rwa [List.tail_take_eq_take_tail]))
    rw [run_succ_of_next (step_of_idle h), ih hrest, answer_inputs, withInputs_inputs, List.drop_tail]
    rfl

/-! The statements. -/

/-- Settles O29: no step is refused, and none changes a field. -/
theorem idleStepsHoldTheState : Obligations.IdleStepsHoldTheState := by
  intro k s h
  cases k with
  | zero => exact ⟨s, run_zero s, rfl, nofun⟩
  | succ k => exact ⟨_, run_succ_of_idle k h, rfl, fun _ => rfl⟩

/-- Settles O51: each write stores its own halves or word and leaves those written before it. -/
theorem sixWritesDefineTheWholeState : Obligations.SixWritesDefineTheWholeState := by
  intro s af bc de hl pc sp
  simp only [← hi_eq_ofNat, ← lo_eq_ofNat_mod]
  exact ⟨_, _, _, _, _, _, exec_writeCommand16 .AF af s, exec_writeCommand16 .BC bc _, exec_writeCommand16 .DE de _,
    exec_writeCommand16 .HL hl _, exec_writeCommand16 .PC pc _, exec_writeCommand16 .SP sp _, rfl⟩

/-- Settles O27: the reset line is looked at before the command. -/
theorem resetIsWholeAndDominant : Obligations.ResetIsWholeAndDominant := by
  intro s c rest hin
  rw [step_cons hin, acceptInput_reset]
  rfl

theorem accepted_of_wf {p : PortIn} (h : ∀ c, p.command = some c → c.wf = true) : p.accepted = true := by
  obtain ⟨rst, _ | c⟩ := p
  · simp [PortIn.accepted]
  · simp [PortIn.accepted, h c rfl]

/-- Settles O42: reset leaves no input pending, and an input that presents no reserved word is accepted. -/
theorem resetStateIsSafe : Obligations.ResetStateIsSafe :=
  fun _ _ => ⟨rfl, fun h => List.all_eq_true.mpr fun p hp => accepted_of_wf (h p hp)⟩

end Sys2Proof.Machine
end
